-- ==== Sys2Proof/Config.lean ====
section
/-! DEFINITION. The fixed parameters of the hardware (spec/00_scope.md rules R5 to R9 and R15), and the one choice
the spec keeps as a parameter, RET_EMPTY. The spec leaves no value of any instruction undefined, so there is no free
value here. -/

namespace Sys2Proof.Config

/-- `MEM_WORDS` (R6): Memory has the cells 0..32767. -/
def memWords : Nat := 32768

/-- `MODULUS` (R5): modulus of `add` and `mult`. -/
def modulus : Nat := 32768

/-- `VALUE_MAX` (R5): the largest literal. -/
def valueMax : Nat := 32767

/-- `REG_BASE` (R5): the raw word that names register 0. -/
def regBase : Nat := 32768

/-- `REG_TOP` (R5): the raw word that names register 7. -/
def regTop : Nat := 32775

/-- `MAX_ARITY` (R5): the most operand words after an opcode. -/
def maxArity : Nat := 3

/-- What `ret` does on an empty stack (R9). -/
inductive RetEmpty where
  /-- `StackUnderflow`, the spec's value. -/
  | fault
  /-- The alternative the spec names and uses nowhere: act as `halt`. -/
  | halt
  deriving DecidableEq, Repr

/-- `RET_EMPTY` (R9): this hardware's value is `fault`. -/
def retEmpty : RetEmpty := .fault

/-- `IN_CODE_MAX` (R15): the largest code the host is assumed to supply; the core never reads it. -/
def inCodeMax : Nat := 65535

end Sys2Proof.Config
end

