-- ==== Sys2Proof/Word.lean ====
section
/-! DEFINITION. The word types (spec/00_scope.md R5, R11; spec/10_state.md R20). -/

namespace Sys2Proof

/-- A Word: a 16-bit unsigned storage cell (R5). -/
abbrev Word := BitVec 16

/-- A byte of the image file, the unit in which Memory is held (spec/20_memory.md R42, log entry 1). -/
abbrev Byte := BitVec 8

/-- A register index, 0..7 (R20). -/
abbrev Reg := Fin 8

end Sys2Proof
end

