-- ==== Sys2Proof/Syntax.lean ====
section
/-! DEFINITION. The instructions as syntax: one constructor per row of spec/opcode_table.json, in the table's order. -/

namespace Sys2Proof

/-- An operand word, sorted into the three classes of R63 (spec/30_encoding.md). -/
inductive Operand where
  /-- A literal, 0..32767: the operand word itself (R64). -/
  | lit (v : BitVec 15)
  /-- A register reference, 32768..32775. -/
  | reg (r : Reg)
  /-- An invalid operand word, 32776..65535, kept whole: it is an error only when it is used (R70). -/
  | invalid (w : Word)
  deriving DecidableEq, Repr

/-- The 22 instructions with their raw operands `a`, `b`, `c` (R67). A destination position holds any operand word:
whether it names a register is checked when the instruction runs (R86). -/
inductive Instr where
  | halt
  | set (a b : Operand)
  | push (a : Operand)
  | pop (a : Operand)
  | eq (a b c : Operand)
  | gt (a b c : Operand)
  | jmp (a : Operand)
  | jt (a b : Operand)
  | jf (a b : Operand)
  | add (a b c : Operand)
  | mult (a b c : Operand)
  | mod (a b c : Operand)
  | and (a b c : Operand)
  | or (a b c : Operand)
  | not (a b : Operand)
  | rmem (a b : Operand)
  | wmem (a b : Operand)
  | call (a : Operand)
  | ret
  | out (a : Operand)
  /-- The row `in` (the word is Lean's own, so the constructor is spelled differently). -/
  | inp (a : Operand)
  | noop
  deriving DecidableEq, Repr

/-- The operands of an instruction in the order `a`, `b`, `c`. -/
def Instr.operands : Instr → List Operand
  | .halt => []
  | .set a b => [a, b]
  | .push a => [a]
  | .pop a => [a]
  | .eq a b c => [a, b, c]
  | .gt a b c => [a, b, c]
  | .jmp a => [a]
  | .jt a b => [a, b]
  | .jf a b => [a, b]
  | .add a b c => [a, b, c]
  | .mult a b c => [a, b, c]
  | .mod a b c => [a, b, c]
  | .and a b c => [a, b, c]
  | .or a b c => [a, b, c]
  | .not a b => [a, b]
  | .rmem a b => [a, b]
  | .wmem a b => [a, b]
  | .call a => [a]
  | .ret => []
  | .out a => [a]
  | .inp a => [a]
  | .noop => []

end Sys2Proof
end

