-- ==== Sys2Proof/WellFormed.lean ====
section
/-! DEFINITION. Well-formed instructions: the terms that stand for instruction words. The one check: an `invalid`
operand holds a word of the invalid class (spec/30_encoding.md R63). Literals and register indexes are bounded by
their types, and no operand class is excluded from any position (R70). -/

namespace Sys2Proof

/-- An `invalid` operand holds a word in [32776, 65535] (R63). -/
def Operand.wf : Operand → Bool
  | .lit _ => true
  | .reg _ => true
  | .invalid w => decide (Config.regTop < w.toNat)

/-- Every operand is well formed. -/
def Instr.wf (i : Instr) : Bool := i.operands.all Operand.wf

end Sys2Proof
end

