-- ==== Sys2Proof/Decode.lean ====
section
/-! DEFINITION. The decoder, total on any bytes, and after it the encoder, both written from the operand classes of
R63 and the opcode map of R67 (spec/30_encoding.md). Bytes come low byte first, the image's order
(spec/20_memory.md R42). -/

namespace Sys2Proof

/-! ### Words and bytes -/

/-- A Word from its two bytes (R42: byte `2k` is bits 7..0, byte `2k + 1` is bits 15..8). -/
def wordOfBytes (lo hi : Byte) : Word := hi ++ lo

/-- Bits 7..0. -/
def lowByte (w : Word) : Byte := w.extractLsb' 0 8

/-- Bits 15..8. -/
def highByte (w : Word) : Byte := w.extractLsb' 8 8

/-- The first Word of a byte sequence and what follows it. -/
def takeWord : List Byte → Option (Word × List Byte)
  | lo :: hi :: rest => some (wordOfBytes lo hi, rest)
  | _ => none

/-! ### Operand words (R63) -/

/-- The class of an operand word. -/
def decodeOperand (w : Word) : Operand :=
  if w.toNat ≤ Config.valueMax then .lit (w.setWidth 15)
  else if h : w.toNat ≤ Config.regTop then .reg ⟨w.toNat - Config.regBase, by unfold Config.regTop at h; unfold Config.regBase; omega⟩
  else .invalid w

/-- The raw word of an operand. -/
def encodeOperand : Operand → Word
  | .lit v => v.setWidth 16
  | .reg r => BitVec.ofNat 16 (Config.regBase + r.val)
  | .invalid w => w

/-! ### The opcode map (R67) -/

/-- An opcode's format F0..F3 (R61) with the instruction it makes of its operands. -/
inductive Shape where
  | f0 (i : Instr)
  | f1 (mk : Operand → Instr)
  | f2 (mk : Operand → Operand → Instr)
  | f3 (mk : Operand → Operand → Operand → Instr)

/-- The opcode map (R67); every number above 21 is unknown (R69). -/
def opcodeMap : Nat → Option Shape
  | 0 => some (.f0 .halt)
  | 1 => some (.f2 .set)
  | 2 => some (.f1 .push)
  | 3 => some (.f1 .pop)
  | 4 => some (.f3 .eq)
  | 5 => some (.f3 .gt)
  | 6 => some (.f1 .jmp)
  | 7 => some (.f2 .jt)
  | 8 => some (.f2 .jf)
  | 9 => some (.f3 .add)
  | 10 => some (.f3 .mult)
  | 11 => some (.f3 .mod)
  | 12 => some (.f3 .and)
  | 13 => some (.f3 .or)
  | 14 => some (.f2 .not)
  | 15 => some (.f2 .rmem)
  | 16 => some (.f2 .wmem)
  | 17 => some (.f1 .call)
  | 18 => some (.f0 .ret)
  | 19 => some (.f1 .out)
  | 20 => some (.f1 .inp)
  | 21 => some (.f0 .noop)
  | _ => none

/-- `ARITY` (R68): the operand words of a shape. -/
def Shape.arity : Shape → Nat
  | .f0 _ => 0
  | .f1 _ => 1
  | .f2 _ => 2
  | .f3 _ => 3

/-! ### The decoder -/

/-- What the decoder finds at the head of a byte sequence. -/
inductive Decoded where
  /-- An instruction, and the bytes after it. -/
  | instr (i : Instr) (rest : List Byte)
  /-- An opcode word above 21; no operand word is read (R69). -/
  | unknownOpcode (op : Word)
  /-- The bytes end before the instruction's `k`-th word (the opcode is word 0). -/
  | missingWord (k : Nat)
  deriving DecidableEq, Repr

/-- Reads the operand words of a shape, lowest first (R83), without resolving them. -/
def Shape.read : Shape → List Byte → Decoded
  | .f0 i, bs => .instr i bs
  | .f1 mk, bs =>
    match takeWord bs with
    | none => .missingWord 1
    | some (a, bs1) => .instr (mk (decodeOperand a)) bs1
  | .f2 mk, bs =>
    match takeWord bs with
    | none => .missingWord 1
    | some (a, bs1) =>
      match takeWord bs1 with
      | none => .missingWord 2
      | some (b, bs2) => .instr (mk (decodeOperand a) (decodeOperand b)) bs2
  | .f3 mk, bs =>
    match takeWord bs with
    | none => .missingWord 1
    | some (a, bs1) =>
      match takeWord bs1 with
      | none => .missingWord 2
      | some (b, bs2) =>
        match takeWord bs2 with
        | none => .missingWord 3
        | some (c, bs3) => .instr (mk (decodeOperand a) (decodeOperand b) (decodeOperand c)) bs3

/-- Decodes the instruction at the head of a byte sequence: the opcode word compared whole (R61), then its operands. -/
def decode (bs : List Byte) : Decoded :=
  match takeWord bs with
  | none => .missingWord 0
  | some (op, rest) =>
    match opcodeMap op.toNat with
    | none => .unknownOpcode op
    | some shape => shape.read rest

/-! ### The encoder -/

/-- The opcode number of an instruction (R67). -/
def Instr.opcode : Instr → Nat
  | .halt => 0
  | .set _ _ => 1
  | .push _ => 2
  | .pop _ => 3
  | .eq _ _ _ => 4
  | .gt _ _ _ => 5
  | .jmp _ => 6
  | .jt _ _ => 7
  | .jf _ _ => 8
  | .add _ _ _ => 9
  | .mult _ _ _ => 10
  | .mod _ _ _ => 11
  | .and _ _ _ => 12
  | .or _ _ _ => 13
  | .not _ _ => 14
  | .rmem _ _ => 15
  | .wmem _ _ => 16
  | .call _ => 17
  | .ret => 18
  | .out _ => 19
  | .inp _ => 20
  | .noop => 21

/-- The words of an instruction: the opcode word, then the operand words (R60, R61). -/
def encodeWords (i : Instr) : List Word := BitVec.ofNat 16 i.opcode :: i.operands.map encodeOperand

/-- Words as bytes, low byte first (R62). -/
def bytesOfWords : List Word → List Byte
  | [] => []
  | w :: ws => lowByte w :: highByte w :: bytesOfWords ws

/-- The bytes of an instruction as an image holds them (R62). -/
def encode (i : Instr) : List Byte := bytesOfWords (encodeWords i)

/-- An instruction's length in words, `1 + arity` (R60). -/
def Instr.length (i : Instr) : Nat := 1 + i.operands.length

/-! ### Table words -/

/-- The low `n` bytes of a number, least significant first. -/
def bytesOfNat : Nat → Nat → List Byte
  | 0, _ => []
  | n + 1, w => BitVec.ofNat 8 w :: bytesOfNat n (w / 256)

/-- The bytes of an instruction given as one number whose bit 0 is bit 0 of the first word: `nbits` bits of it, zeros
up to the longest instruction (4 words, R60). -/
def tableBytes (nbits w : Nat) : List Byte := bytesOfNat 8 (w % 2 ^ nbits)

/-- The instruction the decoder reads from a table row's bits. -/
def decodeTableWord (nbits w : Nat) : Option Instr :=
  match decode (tableBytes nbits w) with
  | .instr i _ => some i
  | .unknownOpcode _ => none
  | .missingWord _ => none

end Sys2Proof
end

