-- ==== Sys2Proof/Machine/State.lean ====
section
/-! DEFINITION. The state of the core as plain data (spec/10_state.md R20 to R38), the reasons a step can stop, and
the state after reset (spec/70_reset_and_hazards.md R190). -/

namespace Sys2Proof.Machine

/-- Memory, a list of byte cells. Word cell `k` of R29 is the two bytes at `2k` (bits 7..0) and `2k + 1` (bits 15..8),
the order of the image (R42); log entry 1. -/
abbrev Memory := List Host.Cell

/-- `STATUS` (R32). WAIT_INPUT carries the register the pending `in` will write (R35, log entry 7). -/
inductive Status where
  | running
  | waitInput (dst : Reg)
  | halted
  | ended
  | faulted
  deriving DecidableEq, Repr

/-- `ERR_KIND` (R33). -/
inductive ErrKind where
  | none
  | invalidOperand
  | invalidRegisterIndex
  | stackUnderflow
  | unknownOpcode
  | divisionByZero
  | addressOutOfRange
  deriving DecidableEq, Repr

/-- An error being raised: its kind and its `ERR_INFO` word (R160). -/
structure Err where
  kind : ErrKind
  info : Word
  deriving DecidableEq, Repr

/-- The state. `input` is the model's own field, the Words the host's input port has still to supply (log entry 5);
`output` is the trace of emitted Words, oldest first (R37, R147). -/
structure State where
  /-- `x[0..7]` (R20). -/
  x : Vector Word 8
  /-- The Cursor (R23). -/
  pc : Word
  /-- `S`, top first (R27). -/
  stack : List Word
  /-- `Mem` (R29). -/
  mem : Memory
  /-- `IMAGE_LEN`, 0..32768 (R31). -/
  imageLen : Fin 32769
  /-- `STATUS` (R32). -/
  status : Status
  /-- `ERR_KIND` (R33). -/
  errKind : ErrKind
  /-- `ERR_INFO` (R34). -/
  errInfo : Word
  /-- The host's input words not yet consumed (R37, R55). -/
  input : List Word
  /-- The Words emitted so far (R147). -/
  output : List Word
  deriving DecidableEq, Repr

/-- Why a step does not exist. The spec's own errors are no `Fault`: raising one is a next state whose `STATUS` is
FAULTED (R166, log entry 2). -/
inductive Fault where
  /-- Raised by `step` in HALTED, ENDED or FAULTED: no step exists from a terminal status (R32). Safe: the machine
  does not go on (log entry 3). -/
  | runEnded
  /-- Raised by `step` in WAIT_INPUT when the host has no word left to supply: the core stays suspended (R93, R149).
  Safe: nothing is claimed of what follows (log entry 4). -/
  | awaitingInput
  deriving DecidableEq, Repr

/-- Why an instruction has no meaning. -/
inductive Refusal where
  /-- Raised by an arm of `exec` whose instruction is not modelled; no arm does so. Safe: the machine stops. -/
  | notModelled (mnemonic : String)
  deriving DecidableEq, Repr

/-- The state after reset with no image loaded (R190, R193): registers, `pc` and `IMAGE_LEN` 0, stack and memory
empty, RUNNING, no error. `IMAGE_LEN` 0 is the length of the empty image (log entry 9); the empty input list is the
model's choice (log entry 5). -/
def State.reset : State where
  x := Vector.replicate 8 0
  pc := 0
  stack := []
  mem := []
  imageLen := 0
  status := .running
  errKind := .none
  errInfo := 0
  input := []
  output := []

end Sys2Proof.Machine
end

