-- ==== Sys2Proof/Machine/Memory.lean ====
section
/-! DEFINITION. Memory: the canonical list of byte cells, one byte read and written, and above them the Word cell that
is the spec's only access (spec/20_memory.md R40, R44, R46). -/

namespace Sys2Proof.Machine

/-- What an unlisted byte reads as: cells hold 0 until written (R47). -/
def unlistedByte : Byte := 0

/-- One past the last byte address: two bytes for each of the `MEM_WORDS` cells. -/
def memBytes : Nat := 65536

/-- The cells from address `lo` on are strictly rising, below `memBytes`, and none holds `unlistedByte`. -/
def Memory.wfFrom : Nat → Memory → Bool
  | _, [] => true
  | lo, (a, v) :: m => decide (lo ≤ a) && decide (a < memBytes) && (v != unlistedByte) && Memory.wfFrom (a + 1) m

/-- The canonical form: equal memories are equal lists. -/
def Memory.wf (m : Memory) : Bool := Memory.wfFrom 0 m

/-- The byte at an address. -/
def Memory.readByte : Memory → Nat → Byte
  | [], _ => unlistedByte
  | (k, v) :: m, a => if k = a then v else Memory.readByte m a

/-- Writes one byte, keeping the canonical form: writing `unlistedByte` removes the entry. -/
def Memory.writeByte : Memory → Nat → Byte → Memory
  | [], a, b => if b = unlistedByte then [] else [(a, b)]
  | (k, v) :: m, a, b =>
    if k < a then (k, v) :: Memory.writeByte m a b
    else if k = a then (if b = unlistedByte then m else (a, b) :: m)
    else if b = unlistedByte then (k, v) :: m
    else (a, b) :: (k, v) :: m

/-- Word cell `k` (R29). -/
def Memory.readWord (m : Memory) (k : Nat) : Word :=
  wordOfBytes (m.readByte (2 * k)) (m.readByte (2 * k + 1))

/-- Replaces word cell `k` whole (R46). -/
def Memory.writeWord (m : Memory) (k : Nat) (w : Word) : Memory :=
  (m.writeByte (2 * k) (lowByte w)).writeByte (2 * k + 1) (highByte w)

/-- Writes bytes to consecutive addresses from `a` on, leaving out addresses that do not exist. -/
def Memory.writeBytes (m : Memory) (a : Nat) : List Byte → Memory
  | [] => m
  | b :: bs => if a < memBytes then Memory.writeBytes (m.writeByte a b) (a + 1) bs else m

/-- Writes words to consecutive cells from cell `k` on, leaving out cells above 32767, which do not exist. -/
def Memory.writeWords (m : Memory) (k : Nat) : List Word → Memory
  | [] => m
  | w :: ws => if k < Config.memWords then Memory.writeWords (m.writeWord k w) (k + 1) ws else m

end Sys2Proof.Machine
end

