-- ==== Sys2Proof/Machine/Ops.lean ====
section
/-! DEFINITION. The shared operations over the state (spec/00_scope.md R12): registers, Cursor, stack, Memory, output,
and raising an error (spec/60_exceptions.md R166). There is no return from an error (R168): the only way out of
FAULTED is reset. -/

namespace Sys2Proof.Machine

/-- What a meaning answers. -/
abbrev Result := Host.Outcome State Fault Refusal

/-! ### Field updates -/

/-- `x[r]` (R12). -/
def State.reg (s : State) (r : Reg) : Word := s.x[r]

/-- `x[r] <- v` (R12). No register is hard-wired (R20). -/
def State.setReg (s : State) (r : Reg) (v : Word) : State := { s with x := s.x.set r v }

/-- `pc <- t`. -/
def State.setPc (s : State) (t : Word) : State := { s with pc := t }

/-- `pc <- pc + n`: the sequential advance by the instruction's length (R89). -/
def State.advance (s : State) (n : Nat) : State := { s with pc := s.pc + BitVec.ofNat 16 n }

/-- Replaces the stack. -/
def State.setStack (s : State) (st : List Word) : State := { s with stack := st }

/-- `Push(v)` (R12); the stack is unbounded (R8). -/
def State.push (s : State) (v : Word) : State := { s with stack := v :: s.stack }

/-- Replaces Memory. -/
def State.setMem (s : State) (m : Memory) : State := { s with mem := m }

/-- `STATUS <- t`. -/
def State.setStatus (s : State) (t : Status) : State := { s with status := t }

/-- `Emit(v)`: one output transaction, recorded at the end of the trace (R147). -/
def State.emit (s : State) (v : Word) : State := { s with output := s.output ++ [v] }

/-- The host's remaining input words. -/
def State.setInput (s : State) (ws : List Word) : State := { s with input := ws }

/-! ### Raising an error -/

/-- The state an error leaves: `STATUS`, `ERR_KIND`, `ERR_INFO` written and nothing else (R166, R90). -/
def State.faultedBy (s : State) (k : ErrKind) (info : Word) : State :=
  { s with status := .faulted, errKind := k, errInfo := info }

/-- `raise K(info)` (R12): the instruction is abandoned and the machine goes to FAULTED. -/
def raise (e : Err) (s : State) : Result := .next (s.faultedBy e.kind e.info)

/-- The end of an instruction body (R84): the state it computed, or the error it raised with none of its writes. -/
def commit (s : State) : Except Err State → Result
  | .ok t => .next t
  | .error e => raise e s

/-! ### Stack and Memory accesses that can raise -/

/-- `Pop()` (R12): the top and the state without it, or `StackUnderflow(0)`. -/
def pop (s : State) : Except Err (Word × State) :=
  match s.stack with
  | [] => .error ⟨.stackUnderflow, 0⟩
  | v :: rest => .ok (v, s.setStack rest)

/-- `MemRead(a, 1)` (R45). -/
def memRead (s : State) (a : Word) : Except Err Word :=
  if a.toNat < Config.memWords then .ok (s.mem.readWord a.toNat) else .error ⟨.addressOutOfRange, a⟩

/-- `MemWrite(a, 1, v)` (R45). -/
def memWrite (s : State) (a v : Word) : Except Err State :=
  if a.toNat < Config.memWords then .ok (s.setMem (s.mem.writeWord a.toNat v)) else .error ⟨.addressOutOfRange, a⟩

end Sys2Proof.Machine
end

