-- ==== Sys2Proof/Machine/Operands.lean ====
section
/-! DEFINITION. The two operand forms, value and destination (spec/40_step_and_operands.md R85, R86), and the bodies
of the instruction formats over them. Operands are examined in the order `a`, `b`, `c`, and the first that raises
decides the error (R87); all values are read before anything is written (R88). -/

namespace Sys2Proof.Machine

/-- `resolve(w)` (R85): a literal is itself, a register reference gives the register's content unchanged. -/
def resolve (s : State) : Operand → Except Err Word
  | .lit v => .ok (encodeOperand (.lit v))
  | .reg r => .ok (s.reg r)
  | .invalid w => .error ⟨.invalidOperand, encodeOperand (.invalid w)⟩

/-- `dst(w)` (R86): a register reference names the register to write; it is not read. -/
def dst : Operand → Except Err Reg
  | .lit v => .error ⟨.invalidRegisterIndex, encodeOperand (.lit v)⟩
  | .reg r => .ok r
  | .invalid w => .error ⟨.invalidRegisterIndex, encodeOperand (.invalid w)⟩

/-- Destination `a`, values `b` and `c`: writes `f b c`, which may itself raise, and advances past four words. -/
def writeBinary (f : Word → Word → Except Err Word) (a b c : Operand) (s : State) : Result :=
  commit s do
    let r ← dst a
    let vb ← resolve s b
    let vc ← resolve s c
    let v ← f vb vc
    return (s.setReg r v).advance 4

/-- Destination `a`, value `b`: writes `f b`, which may itself raise, and advances past three words. -/
def writeUnary (f : Word → Except Err Word) (a b : Operand) (s : State) : Result :=
  commit s do
    let r ← dst a
    let vb ← resolve s b
    let v ← f vb
    return (s.setReg r v).advance 3

/-- Condition `a`, target `b`: jumps when `test` holds of the condition; `b` is resolved only then (R116). -/
def branch (test : Word → Bool) (a b : Operand) (s : State) : Result :=
  commit s do
    let v ← resolve s a
    if test v then
      let t ← resolve s b
      return s.setPc t
    else
      return s.advance 3

end Sys2Proof.Machine
end

