-- ==== Sys2Proof/Machine/Alu.lean ====
section
/-! DEFINITION. `add`, `mult`, `mod`, `and`, `or`, `not` (spec/45_alu.md). Sums and products are formed on natural
numbers and narrowed at the end, exact for all 16-bit inputs. -/

namespace Sys2Proof.Machine

/-- `(vb + vc) mod 32768` (R120). -/
def addWord (vb vc : Word) : Word := BitVec.ofNat 16 ((vb.toNat + vc.toNat) % Config.modulus)

/-- `(vb * vc) mod 32768` (R121). -/
def multWord (vb vc : Word) : Word := BitVec.ofNat 16 ((vb.toNat * vc.toNat) % Config.modulus)

/-- `vb mod vc`, or `DivisionByZero(0)` (R122). -/
def modWord (vb vc : Word) : Except Err Word :=
  if vc.toNat = 0 then .error ⟨.divisionByZero, 0⟩ else .ok (BitVec.ofNat 16 (vb.toNat % vc.toNat))

/-- 16-bit AND, no mask (R123). -/
def andWord (vb vc : Word) : Word := vb &&& vc

/-- 16-bit OR, no mask (R124). -/
def orWord (vb vc : Word) : Word := vb ||| vc

/-- The complement masked to 15 bits (R125). -/
def notWord (vb : Word) : Word := (vb ^^^ 0xFFFF#16) &&& 0x7FFF#16

/-- `add a, b, c` (R120). -/
def execAdd (a b c : Operand) (s : State) : Result := writeBinary (fun vb vc => .ok (addWord vb vc)) a b c s

/-- `mult a, b, c` (R121). -/
def execMult (a b c : Operand) (s : State) : Result := writeBinary (fun vb vc => .ok (multWord vb vc)) a b c s

/-- `mod a, b, c` (R122): the zero test comes after both operands. -/
def execMod (a b c : Operand) (s : State) : Result := writeBinary modWord a b c s

/-- `and a, b, c` (R123). -/
def execAnd (a b c : Operand) (s : State) : Result := writeBinary (fun vb vc => .ok (andWord vb vc)) a b c s

/-- `or a, b, c` (R124). -/
def execOr (a b c : Operand) (s : State) : Result := writeBinary (fun vb vc => .ok (orWord vb vc)) a b c s

/-- `not a, b` (R125). -/
def execNot (a b : Operand) (s : State) : Result := writeUnary (fun vb => .ok (notWord vb)) a b s

end Sys2Proof.Machine
end

