-- ==== Sys2Proof/Machine/Flags.lean ====
section
/-! DEFINITION. The machine has no flags (spec/10_state.md R26). What stands in their place: the truth values `eq` and
`gt` write (spec/43_compare.md), the zero test of the conditional jumps (spec/44_jump.md), and the numbers of the
host-visible status fields (R32, R33). -/

namespace Sys2Proof.Machine

/-- 1 for true, 0 for false. -/
def truthWord (b : Bool) : Word := if b then 1 else 0

/-- The result of `eq` (R110): all 16 bits compared. -/
def eqWord (vb vc : Word) : Word := truthWord (decide (vb.toNat = vc.toNat))

/-- The result of `gt` (R111): unsigned and strict. -/
def gtWord (vb vc : Word) : Word := truthWord (decide (vb.toNat > vc.toNat))

/-- The condition of `jt` (R116): not zero, on the whole Word. -/
def isNonzero (v : Word) : Bool := decide (v.toNat ≠ 0)

/-- The condition of `jf` (R117). -/
def isZero (v : Word) : Bool := decide (v.toNat = 0)

/-- The numeric code of `STATUS` (R32). -/
def Status.code : Status → Nat
  | .running => 0
  | .waitInput _ => 1
  | .halted => 2
  | .ended => 3
  | .faulted => 4

/-- The numeric code of `ERR_KIND` (R33). -/
def ErrKind.code : ErrKind → Nat
  | .none => 0
  | .invalidOperand => 1
  | .invalidRegisterIndex => 2
  | .stackUnderflow => 3
  | .unknownOpcode => 4
  | .divisionByZero => 5
  | .addressOutOfRange => 6

/-- The three terminal statuses (R32). -/
def Status.isTerminal : Status → Bool
  | .running => false
  | .waitInput _ => false
  | .halted => true
  | .ended => true
  | .faulted => true

end Sys2Proof.Machine
end

