-- ==== Sys2Proof/Machine/Compare.lean ====
section
/-! DEFINITION. `eq`, `gt` (spec/43_compare.md). -/

namespace Sys2Proof.Machine

/-- `eq a, b, c` (R110). -/
def execEq (a b c : Operand) (s : State) : Result := writeBinary (fun vb vc => .ok (eqWord vb vc)) a b c s

/-- `gt a, b, c` (R111). -/
def execGt (a b c : Operand) (s : State) : Result := writeBinary (fun vb vc => .ok (gtWord vb vc)) a b c s

end Sys2Proof.Machine
end

