-- ==== Sys2Proof/Machine/Io.lean ====
section
/-! DEFINITION. `out`, `in` and the two ports (spec/48_io.md). `in` is one instruction in two halves: its body suspends
the core, and the delivery of one input word completes it. -/

namespace Sys2Proof.Machine

/-- `out a` (R145, R147): emits the resolved Word whole. -/
def execOut (a : Operand) (s : State) : Result :=
  commit s do
    let v ← resolve s a
    return (s.emit v).advance 2

/-- `in a`, first half (R146): the destination is checked, then the core waits with everything else unchanged. -/
def execIn (a : Operand) (s : State) : Result :=
  commit s do
    let r ← dst a
    return s.setStatus (.waitInput r)

/-- `in a`, second half (R146, R148): the host offers the Word `c`. Outside WAIT_INPUT it is not taken. -/
def deliver (c : Word) (s : State) : State :=
  match s.status with
  | .waitInput r => ((s.setReg r c).advance 2).setStatus .running
  | .running => s
  | .halted => s
  | .ended => s
  | .faulted => s

/-- A step in WAIT_INPUT: the next word of the host is delivered; with none left there is no step (R93, R149). -/
def awaitInput (s : State) : Result :=
  match s.input with
  | [] => .fault .awaitingInput
  | c :: rest => .next (deliver c (s.setInput rest))

end Sys2Proof.Machine
end

