-- ==== Sys2Proof/Machine/Jump.lean ====
section
/-! DEFINITION. `jmp`, `jt`, `jf` (spec/44_jump.md). A target is not checked at the time of the jump. -/

namespace Sys2Proof.Machine

/-- `jmp a` (R115). -/
def execJmp (a : Operand) (s : State) : Result :=
  commit s do
    let t ← resolve s a
    return s.setPc t

/-- `jt a, b` (R116). -/
def execJt (a b : Operand) (s : State) : Result := branch isNonzero a b s

/-- `jf a, b` (R117). -/
def execJf (a b : Operand) (s : State) : Result := branch isZero a b s

end Sys2Proof.Machine
end

