-- ==== Sys2Proof/Machine/Linkage.lean ====
section
/-! DEFINITION. `call`, `ret` (spec/47_call_ret.md). -/

namespace Sys2Proof.Machine

/-- `call a` (R140): pushes the address of the next instruction, then jumps. -/
def execCall (a : Operand) (s : State) : Result :=
  commit s do
    let t ← resolve s a
    return (s.push (s.pc + 2)).setPc t

/-- `ret` under either value of `RET_EMPTY` (R141, R9). -/
def retWith (p : Config.RetEmpty) (s : State) : Result :=
  match p, s.stack with
  | .halt, [] => commit s (.ok (s.setStatus .halted))
  | _, _ =>
    commit s do
      let (t, s1) ← pop s
      return s1.setPc t

/-- `ret` (R141): this hardware's `RET_EMPTY` is `fault`. -/
def execRet (s : State) : Result := retWith Config.retEmpty s

end Sys2Proof.Machine
end

