-- ==== Sys2Proof/Machine/MemoryAccess.lean ====
section
/-! DEFINITION. `rmem`, `wmem` (spec/46_mem.md). The effective address is one resolved operand. -/

namespace Sys2Proof.Machine

/-- `rmem a, b` (R135): the cell's Word is copied unchanged. -/
def execRmem (a b : Operand) (s : State) : Result := writeUnary (memRead s) a b s

/-- `wmem a, b` (R136): `a` is a value operand, the address. -/
def execWmem (a b : Operand) (s : State) : Result :=
  commit s do
    let addr ← resolve s a
    let v ← resolve s b
    let s1 ← memWrite s addr v
    return s1.advance 3

end Sys2Proof.Machine
end

