-- ==== Sys2Proof/Machine/Move.lean ====
section
/-! DEFINITION. `set`, `push`, `pop` (spec/42_move_stack.md). -/

namespace Sys2Proof.Machine

/-- `set a, b` (R105). -/
def execSet (a b : Operand) (s : State) : Result := writeUnary (fun v => .ok v) a b s

/-- `push a` (R106). -/
def execPush (a : Operand) (s : State) : Result :=
  commit s do
    let v ← resolve s a
    return (s.push v).advance 2

/-- `pop a` (R107): the destination is checked before the stack. -/
def execPop (a : Operand) (s : State) : Result :=
  commit s do
    let r ← dst a
    let (v, s1) ← pop s
    return (s1.setReg r v).advance 2

end Sys2Proof.Machine
end

