-- ==== Sys2Proof/Machine/System.lean ====
section
/-! DEFINITION. `halt`, `noop` (spec/41_system.md). -/

namespace Sys2Proof.Machine

/-- `halt` (R100): `STATUS <- HALTED`; `pc` keeps the address of the `halt`. -/
def execHalt (s : State) : Result := commit s (.ok (s.setStatus .halted))

/-- `noop` (R101). -/
def execNoop (s : State) : Result := commit s (.ok (s.advance 1))

end Sys2Proof.Machine
end

