-- ==== Sys2Proof/Machine/Fetch.lean ====
section
/-! DEFINITION. The end test and the fetch of one step (spec/40_step_and_operands.md R81 to R83). Memory is read fresh
at every step (spec/20_memory.md R52). -/

namespace Sys2Proof.Machine

/-- The bytes of at most `n` cells from cell `k` on, as far as Memory reaches. -/
def cellBytes (m : Memory) : Nat → Nat → List Byte
  | _, 0 => []
  | k, n + 1 =>
    if k < Config.memWords then m.readByte (2 * k) :: m.readByte (2 * k + 1) :: cellBytes m (k + 1) n else []

/-- The longest instruction's bytes at `pc`, fewer where Memory ends first. -/
def fetchWindow (s : State) : List Byte := cellBytes s.mem s.pc.toNat (1 + Config.maxArity)

/-- What a step of a RUNNING core finds. -/
inductive Fetched where
  /-- `pc ≥ IMAGE_LEN`: natural termination (R81). -/
  | endOfImage
  /-- An instruction to execute (R84). -/
  | run (i : Instr)
  /-- The fetch raised (R82, R83). -/
  | error (e : Err)
  deriving DecidableEq, Repr

/-- The end test, the opcode fetch and the operand fetch, in this order (R81, R82, R83, R170). A word that Memory does
not hold lies above address 32767. -/
def fetch (s : State) : Fetched :=
  if s.imageLen.val ≤ s.pc.toNat then .endOfImage
  else
    match decode (fetchWindow s) with
    | .instr i _ => .run i
    | .unknownOpcode op => .error ⟨.unknownOpcode, op⟩
    | .missingWord k => .error ⟨.addressOutOfRange, BitVec.ofNat 16 (s.pc.toNat + k)⟩

end Sys2Proof.Machine
end

