-- ==== Sys2Proof/Machine/Step.lean ====
section
/-! DEFINITION. One step of the core (spec/40_step_and_operands.md R93), and the state in which the very next step runs
a given instruction. -/

namespace Sys2Proof.Machine

/-- A step of a RUNNING core (R81 to R84). -/
def stepRunning (s : State) : Host.Outcome State Fault Refusal :=
  match fetch s with
  | .endOfImage => .next (s.setStatus .ended)
  | .run i => exec i s
  | .error e => raise e s

/-- One step (R93). A terminal status has none (R32). -/
def step (s : State) : Host.Outcome State Fault Refusal :=
  match s.status with
  | .running => stepRunning s
  | .waitInput _ => awaitInput s
  | .halted => .fault .runEnded
  | .ended => .fault .runEnded
  | .faulted => .fault .runEnded

/-- Where `withFetchWord` places its instruction: at `pc`, or at 0 where four words do not fit below the top. -/
def fetchPlace (s : State) : Word := if s.pc.toNat + 4 ≤ Config.memWords then s.pc else 0

/-- `s` with the instruction of a table row's bits placed so that the next step fetches and runs it (log entry 10): its
words at `pc`, `IMAGE_LEN` at least one past the opcode, and `STATUS` RUNNING. -/
def State.withFetchWord (s : State) (nbits w : Nat) : State :=
  let p := fetchPlace s
  { s with
    pc := p
    mem := s.mem.writeBytes (2 * p.toNat) (tableBytes nbits w)
    imageLen := Fin.ofNat 32769 (max s.imageLen.val (p.toNat + 1))
    status := .running }

end Sys2Proof.Machine
end

