-- ==== Sys2Proof/Machine/Ports.lean ====
section
/-! DEFINITION. What the host does at the boundaries of a run: loading the image while reset is held
(spec/70_reset_and_hazards.md R191, spec/20_memory.md R42, R43) and reading the state after a stop
(spec/10_state.md R38). -/

namespace Sys2Proof.Machine

/-- The words of an image file, or nothing for a file of odd length (R42, R43). -/
def wordsOfBytes : List Byte → Option (List Word)
  | [] => some []
  | [_] => none
  | lo :: hi :: rest => (wordsOfBytes rest).map (wordOfBytes lo hi :: ·)

/-- `init(image)` (R191): the state at the release of reset, whatever the state before it was (R192); no state for an
image longer than Memory (R43). The host's input script is an argument beside it. -/
def State.init (image input : List Word) : Option State :=
  if h : image.length ≤ 32768 then
    some { State.reset with
      mem := Memory.writeWords [] 0 image
      imageLen := ⟨image.length, by omega⟩
      input := input }
  else none

/-- The state a run of an image file starts from. -/
def State.load (file : List Byte) (input : List Word) : Option State :=
  (wordsOfBytes file).bind fun image => State.init image input

/-- What the host reads after a stop (R38, D19), with the status and kind as the numbers of R32 and R33. -/
structure Readout where
  x : Vector Word 8
  pc : Word
  depth : Nat
  status : Nat
  errKind : Nat
  errInfo : Word
  mem : Memory
  deriving DecidableEq, Repr

/-- The readout, which exists after a stop only (R38). -/
def State.readout (s : State) : Option Readout :=
  if s.status.isTerminal then
    some ⟨s.x, s.pc, s.stack.length, s.status.code, s.errKind.code, s.errInfo, s.mem⟩
  else none

end Sys2Proof.Machine
end

