-- ==== Sys2Proof/Safety.lean ====
section
/-! DEFINITION. The terms claims use: the invariant of the machine, the premises a claim may name (spec/00_scope.md
R15, spec/93_implementation_defined.md U6), and running a list of instructions. -/

namespace Sys2Proof.Machine

/-- What holds of the status fields in each status: no error recorded outside FAULTED and one recorded in it (R33,
R169); in WAIT_INPUT `pc` addresses an `in` whose operand names the pending register (R35); in HALTED `pc` addresses a
`halt` inside the image; in ENDED `pc` is not below `IMAGE_LEN` (R199). -/
def State.statusOk (s : State) : Prop :=
  match s.status with
  | .running => s.errKind = .none ∧ s.errInfo = 0
  | .waitInput r =>
    s.errKind = .none ∧ s.errInfo = 0 ∧ s.pc.toNat < s.imageLen.val ∧ s.pc.toNat + 1 < Config.memWords ∧
      s.mem.readWord s.pc.toNat = 20 ∧ s.mem.readWord (s.pc.toNat + 1) = encodeOperand (.reg r)
  | .halted => s.errKind = .none ∧ s.errInfo = 0 ∧ s.pc.toNat < s.imageLen.val ∧ s.mem.readWord s.pc.toNat = 0
  | .ended => s.errKind = .none ∧ s.errInfo = 0 ∧ s.imageLen.val ≤ s.pc.toNat
  | .faulted => s.errKind ≠ .none

/-- The machine's invariant: Memory in canonical form, and the status fields in agreement. -/
structure State.Inv (s : State) : Prop where
  mem : s.mem.wf = true
  status : s.statusOk

/-- The premise of U6: every register and stack entry is a Value, at most 32767. -/
def State.valuesOnly (s : State) : Prop :=
  (∀ r : Reg, (s.reg r).toNat ≤ Config.valueMax) ∧ ∀ w ∈ s.stack, w.toNat ≤ Config.valueMax

/-- The host supplies only codes up to `max` (R15). -/
def State.hostWithin (max : Nat) (s : State) : Prop := ∀ c ∈ s.input, c.toNat ≤ max

/-- The bodies of a list of instructions, one after another. -/
def execAll : List Instr → State → Result
  | [], s => .next s
  | i :: is, s =>
    match exec i s with
    | .next t => execAll is t
    | .fault r => .fault r
    | .refused r => .refused r

end Sys2Proof.Machine
end

