-- ==== Sys2Proof/Certificates/Slice0/Obligations.lean ====
section
/-! DEFINITION. The statements for the provers. Each docstring names the rule of spec/ a statement formalises; one that
rests on a decision the spec marks as its own (D<n> of spec/92_eei_decisions.md) or on a log entry says so. -/

/-! ### Shared shapes of the statements -/

namespace Sys2Proof.Claims

open Sys2Proof.Machine

/-- A three-operand instruction is encoded F3 with opcode `n`, and its operands raise in the order `a`, `b`, `c`: a
destination that is no register reference, then an invalid `b`, then an invalid `c`. -/
def BinaryForm (n : Nat) (mk : Operand → Operand → Operand → Instr) : Prop :=
  ∀ (s : State) (a b c : Operand),
    encodeWords (mk a b c) = [BitVec.ofNat 16 n, encodeOperand a, encodeOperand b, encodeOperand c] ∧
    ((∀ r, a ≠ .reg r) → exec (mk a b c) s = .next (s.faultedBy .invalidRegisterIndex (encodeOperand a))) ∧
    (∀ r w, a = .reg r → b = .invalid w → exec (mk a b c) s = .next (s.faultedBy .invalidOperand w)) ∧
    (∀ r vb w, a = .reg r → resolve s b = .ok vb → c = .invalid w →
      exec (mk a b c) s = .next (s.faultedBy .invalidOperand w))

/-- With a register destination and two values, the instruction completes: it writes the 16-bit word `f` of the two
numbers into the register, `pc` moves past four words, and nothing else changes. -/
def BinaryWrites (mk : Operand → Operand → Operand → Instr) (f : Nat → Nat → Nat) : Prop :=
  ∀ (s : State) (r : Reg) (b c : Operand) (vb vc : Word), resolve s b = .ok vb → resolve s c = .ok vc →
    exec (mk (.reg r) b c) s =
      .next { s with x := s.x.set r (BitVec.ofNat 16 (f vb.toNat vc.toNat)), pc := s.pc + 4 }

/-- A two-operand instruction with a destination is encoded F2 with opcode `n`; a destination that is no register
reference raises first, then an invalid `b`. -/
def UnaryForm (n : Nat) (mk : Operand → Operand → Instr) : Prop :=
  ∀ (s : State) (a b : Operand),
    encodeWords (mk a b) = [BitVec.ofNat 16 n, encodeOperand a, encodeOperand b] ∧
    ((∀ r, a ≠ .reg r) → exec (mk a b) s = .next (s.faultedBy .invalidRegisterIndex (encodeOperand a))) ∧
    (∀ r w, a = .reg r → b = .invalid w → exec (mk a b) s = .next (s.faultedBy .invalidOperand w))

/-- A one-operand instruction on a value is encoded F1 with opcode `n`, and an invalid operand raises. -/
def ValueForm (n : Nat) (mk : Operand → Instr) : Prop :=
  ∀ (s : State) (a : Operand),
    encodeWords (mk a) = [BitVec.ofNat 16 n, encodeOperand a] ∧
    (∀ w, a = .invalid w → exec (mk a) s = .next (s.faultedBy .invalidOperand w))

/-- A conditional jump encoded F2 with opcode `n`, taken when `cond` holds of its condition's number: an invalid
condition raises; taken, the target becomes `pc` or raises when invalid; not taken, `pc` moves past three words and
the target word is not examined. -/
def ConditionalJump (n : Nat) (mk : Operand → Operand → Instr) (cond : Nat → Prop) : Prop :=
  ∀ (s : State) (a b : Operand),
    encodeWords (mk a b) = [BitVec.ofNat 16 n, encodeOperand a, encodeOperand b] ∧
    (∀ w, a = .invalid w → exec (mk a b) s = .next (s.faultedBy .invalidOperand w)) ∧
    (∀ v, resolve s a = .ok v →
      (cond v.toNat → ∀ t, resolve s b = .ok t → exec (mk a b) s = .next { s with pc := t }) ∧
      (cond v.toNat → ∀ w, b = .invalid w → exec (mk a b) s = .next (s.faultedBy .invalidOperand w)) ∧
      (¬ cond v.toNat → exec (mk a b) s = .next { s with pc := s.pc + 3 }))

/-- Every byte of Memory reads the same in both states. -/
def SameMemory (s t : State) : Prop := ∀ a, t.mem.readByte a = s.mem.readByte a

/-- The status fields are as before, unless an error was raised. -/
def StatusKeptUnlessRaised (s t : State) : Prop :=
  t.status = .faulted ∨ (t.status = s.status ∧ t.errKind = s.errKind ∧ t.errInfo = s.errInfo)

/-- The instructions that write the register their operand `a` names and touch neither stack, Memory nor ports. -/
def writesRegister (a b c : Operand) : List Instr :=
  [.set a b, .eq a b c, .gt a b c, .add a b c, .mult a b c, .mod a b c, .and a b c, .or a b c, .not a b, .rmem a b]

/-- A RUNNING core whose next step executes `i`. -/
def Executes (s : State) (i : Instr) : Prop :=
  s.status = .running ∧ s.pc.toNat < s.imageLen.val ∧ ∃ rest, decode (fetchWindow s) = .instr i rest

end Sys2Proof.Claims

open Sys2Proof Sys2Proof.Machine Sys2Proof.Claims

/-! ### The 22 instructions -/

/-- R100 (`halt`): completes with STATUS HALTED and nothing else changed. That `pc` keeps its value is the spec's
decision D13. -/
def Obligations.HaltStopsInPlace : Prop :=
  encodeWords .halt = [0] ∧ ∀ s : State, exec .halt s = .next { s with status := .halted }

/-- R101 (`noop`): completes with `pc + 1` and nothing else changed. -/
def Obligations.NoopOnlyAdvances : Prop :=
  encodeWords .noop = [21] ∧ ∀ s : State, exec .noop s = .next { s with pc := s.pc + 1 }

/-- R105 (`set`). -/
def Obligations.SetCopiesValue : Prop :=
  UnaryForm 1 .set ∧
  ∀ (s : State) (r : Reg) (b : Operand) (v : Word), resolve s b = .ok v →
    exec (.set (.reg r) b) s = .next { s with x := s.x.set r v, pc := s.pc + 3 }

/-- R106 (`push`). -/
def Obligations.PushPutsValueOnTop : Prop :=
  ValueForm 2 .push ∧
  ∀ (s : State) (a : Operand) (v : Word), resolve s a = .ok v →
    exec (.push a) s = .next { s with stack := v :: s.stack, pc := s.pc + 2 }

/-- R107 (`pop`): the destination is checked before the stack. -/
def Obligations.PopTakesTop : Prop :=
  ∀ (s : State) (a : Operand),
    encodeWords (.pop a) = [3, encodeOperand a] ∧
    ((∀ r, a ≠ .reg r) → exec (.pop a) s = .next (s.faultedBy .invalidRegisterIndex (encodeOperand a))) ∧
    (∀ r, a = .reg r → s.stack = [] → exec (.pop a) s = .next (s.faultedBy .stackUnderflow 0)) ∧
    (∀ r v rest, a = .reg r → s.stack = v :: rest →
      exec (.pop a) s = .next { s with x := s.x.set r v, stack := rest, pc := s.pc + 2 })

/-- R110 (`eq`). -/
def Obligations.EqWritesTruth : Prop :=
  BinaryForm 4 .eq ∧ BinaryWrites .eq fun vb vc => if vb = vc then 1 else 0

/-- R111 (`gt`): unsigned and strict. -/
def Obligations.GtWritesTruth : Prop :=
  BinaryForm 5 .gt ∧ BinaryWrites .gt fun vb vc => if vb > vc then 1 else 0

/-- R115 (`jmp`). -/
def Obligations.JmpSetsCursor : Prop :=
  ValueForm 6 .jmp ∧
  ∀ (s : State) (a : Operand) (t : Word), resolve s a = .ok t → exec (.jmp a) s = .next { s with pc := t }

/-- R116 (`jt`). That an untaken target is not examined is the spec's decision D10. -/
def Obligations.JtJumpsWhenNonzero : Prop := ConditionalJump 7 .jt fun v => v ≠ 0

/-- R117 (`jf`). That an untaken target is not examined is the spec's decision D10. -/
def Obligations.JfJumpsWhenZero : Prop := ConditionalJump 8 .jf fun v => v = 0

/-- R120 (`add`). -/
def Obligations.AddModulo : Prop :=
  BinaryForm 9 .add ∧ BinaryWrites .add fun vb vc => (vb + vc) % 32768

/-- R121 (`mult`). -/
def Obligations.MultModulo : Prop :=
  BinaryForm 10 .mult ∧ BinaryWrites .mult fun vb vc => (vb * vc) % 32768

/-- R122 (`mod`): the zero divisor raises after the operands; otherwise the remainder, below the divisor. -/
def Obligations.ModRemainder : Prop :=
  BinaryForm 11 .mod ∧
  ∀ (s : State) (r : Reg) (b c : Operand) (vb vc : Word), resolve s b = .ok vb → resolve s c = .ok vc →
    (vc.toNat = 0 → exec (.mod (.reg r) b c) s = .next (s.faultedBy .divisionByZero 0)) ∧
    (vc.toNat ≠ 0 → ∃ v : Word, v.toNat = vb.toNat % vc.toNat ∧ v.toNat < vc.toNat ∧
      exec (.mod (.reg r) b c) s = .next { s with x := s.x.set r v, pc := s.pc + 4 })

/-- R123 (`and`). That no mask is applied is the spec's decision D9. -/
def Obligations.AndBitwise : Prop :=
  BinaryForm 12 .and ∧
  ∀ (s : State) (r : Reg) (b c : Operand) (vb vc : Word), resolve s b = .ok vb → resolve s c = .ok vc →
    ∃ v : Word, (∀ k, v.getLsbD k = (vb.getLsbD k && vc.getLsbD k)) ∧
      exec (.and (.reg r) b c) s = .next { s with x := s.x.set r v, pc := s.pc + 4 }

/-- R124 (`or`). That no mask is applied is the spec's decision D9. -/
def Obligations.OrBitwise : Prop :=
  BinaryForm 13 .or ∧
  ∀ (s : State) (r : Reg) (b c : Operand) (vb vc : Word), resolve s b = .ok vb → resolve s c = .ok vc →
    ∃ v : Word, (∀ k, v.getLsbD k = (vb.getLsbD k || vc.getLsbD k)) ∧
      exec (.or (.reg r) b c) s = .next { s with x := s.x.set r v, pc := s.pc + 4 }

/-- R125 (`not`): bits 14..0 inverted, bit 15 zero, which is `32767 - vb[14:0]`; an involution on 15-bit values. -/
def Obligations.NotComplements : Prop :=
  UnaryForm 14 .not ∧
  (∀ (s : State) (r : Reg) (b : Operand) (vb : Word), resolve s b = .ok vb →
    ∃ v : Word, v.toNat = 32767 - vb.toNat % 32768 ∧
      (∀ k, v.getLsbD k = (decide (k < 15) && !vb.getLsbD k)) ∧
      exec (.not (.reg r) b) s = .next { s with x := s.x.set r v, pc := s.pc + 3 }) ∧
  (∀ (s : State) (r q : Reg) (b : Operand) (vb : Word), resolve s b = .ok vb → vb.toNat ≤ 32767 →
    ∃ t, execAll [.not (.reg r) b, .not (.reg q) (.reg r)] s = .next t ∧ t.reg q = vb)

/-- R135 (`rmem`): the cell is copied unchanged; an address above 32767 raises after the operands, which is the spec's
decision D7. -/
def Obligations.RmemReadsCell : Prop :=
  UnaryForm 15 .rmem ∧
  ∀ (s : State) (r : Reg) (b : Operand) (addr : Word), resolve s b = .ok addr →
    (addr.toNat ≤ 32767 → exec (.rmem (.reg r) b) s =
      .next { s with x := s.x.set r (s.mem.readWord addr.toNat), pc := s.pc + 3 }) ∧
    (addr.toNat > 32767 → exec (.rmem (.reg r) b) s = .next (s.faultedBy .addressOutOfRange addr))

/-- R136 (`wmem`): the cell at the first operand's value gets the second's, no other cell and no register changes, and
an address above 32767 raises after the operands, which is the spec's decision D7. Memory is in its canonical form (an
invariant, stated below) and stays in it; that form is the model's, log entry 1. -/
def Obligations.WmemWritesCell : Prop :=
  ∀ (s : State) (a b : Operand),
    encodeWords (.wmem a b) = [16, encodeOperand a, encodeOperand b] ∧
    (∀ w, a = .invalid w → exec (.wmem a b) s = .next (s.faultedBy .invalidOperand w)) ∧
    (∀ addr w, resolve s a = .ok addr → b = .invalid w →
      exec (.wmem a b) s = .next (s.faultedBy .invalidOperand w)) ∧
    (∀ addr v, resolve s a = .ok addr → resolve s b = .ok v → addr.toNat > 32767 →
      exec (.wmem a b) s = .next (s.faultedBy .addressOutOfRange addr)) ∧
    (∀ addr v, resolve s a = .ok addr → resolve s b = .ok v → addr.toNat ≤ 32767 → s.mem.wf = true →
      ∃ m : Memory, exec (.wmem a b) s = .next { s with mem := m, pc := s.pc + 3 } ∧
        m.wf = true ∧ ∀ k, m.readWord k = if k = addr.toNat then v else s.mem.readWord k)

/-- R140 (`call`): pushes `pc + 2` and jumps; from a step, the pushed Word is the number `pc + 2`, at most 32768. -/
def Obligations.CallPushesReturnAddress : Prop :=
  ValueForm 17 .call ∧
  (∀ (s : State) (a : Operand) (t : Word), resolve s a = .ok t →
    exec (.call a) s = .next { s with stack := (s.pc + 2) :: s.stack, pc := t }) ∧
  (∀ (s : State) (a : Operand), Executes s (.call a) →
    (s.pc + 2).toNat = s.pc.toNat + 2 ∧ (s.pc + 2).toNat ≤ 32768)

/-- R141 (`ret`). That an empty stack is StackUnderflow is the spec's decision D3; under the alternative value of
RET_EMPTY the same body halts. -/
def Obligations.RetPopsCursor : Prop :=
  encodeWords .ret = [18] ∧
  (∀ (s : State) (t : Word) (rest : List Word), s.stack = t :: rest →
    exec .ret s = .next { s with stack := rest, pc := t }) ∧
  (∀ s : State, s.stack = [] → exec .ret s = .next (s.faultedBy .stackUnderflow 0)) ∧
  (∀ s : State, s.stack = [] → retWith .halt s = .next { s with status := .halted }) ∧
  (∀ (s : State) (t : Word) (rest : List Word), s.stack = t :: rest → retWith .halt s = retWith .fault s)

/-- R145, R147 (`out`): the resolved Word is emitted whole. That no code is too large is the spec's decision D14. -/
def Obligations.OutEmitsWord : Prop :=
  ValueForm 19 .out ∧
  ∀ (s : State) (a : Operand) (v : Word), resolve s a = .ok v →
    exec (.out a) s = .next { s with output := s.output ++ [v], pc := s.pc + 2 }

/-- R146, R148 (`in`): the first half checks the destination and suspends with nothing else changed, so a faulting `in`
takes no input; the next step, when the host has a word, completes it. The order of check and wait is the spec's
decision D16; the list of the host's words is log entry 5. -/
def Obligations.InSuspendsThenCompletes : Prop :=
  ∀ (s : State) (a : Operand),
    encodeWords (.inp a) = [20, encodeOperand a] ∧
    ((∀ r, a ≠ .reg r) → exec (.inp a) s = .next (s.faultedBy .invalidRegisterIndex (encodeOperand a))) ∧
    (∀ r, a = .reg r → ∃ t, exec (.inp a) s = .next t ∧ t = { s with status := .waitInput r } ∧
      (∀ c rest, s.input = c :: rest → step t =
        .next { s with x := s.x.set r c, pc := s.pc + 2, status := .running, input := rest }) ∧
      (s.input = [] → step t = .fault .awaitingInput))

/-! ### Encoding -/

/-- Decoding an encoded well-formed instruction gives it back, with every operand, whatever bytes follow (R60 to R68). -/
def Obligations.DecodeEncodeRoundTrip : Prop :=
  ∀ (i : Instr) (rest : List Byte), i.wf = true → decode (encode i ++ rest) = .instr i rest

/-- Whatever the decoder reads is well formed and is exactly the encoding of the bytes it took (R71). -/
def Obligations.DecodedBytesAreItsEncoding : Prop :=
  ∀ (bs rest : List Byte) (i : Instr), decode bs = .instr i rest → i.wf = true ∧ bs = encode i ++ rest

/-- Every operand word is in exactly one class (R63), and its class keeps the word. -/
def Obligations.OperandClasses : Prop :=
  ∀ w : Word,
    (w.toNat ≤ 32767 → ∃ v : BitVec 15, v.toNat = w.toNat ∧ decodeOperand w = .lit v) ∧
    (32768 ≤ w.toNat → w.toNat ≤ 32775 → ∃ r : Reg, r.val = w.toNat - 32768 ∧ decodeOperand w = .reg r) ∧
    (32776 ≤ w.toNat → decodeOperand w = .invalid w) ∧
    encodeOperand (decodeOperand w) = w

/-- Words of the spec's own examples and opcode map decode to the instructions they stand for (R67, E1 to E3). -/
def Obligations.DecodesSpecWords : Prop :=
  decode (bytesOfWords [9, 32768, 4, 2]) = .instr (.add (.reg 0) (.lit 4) (.lit 2)) [] ∧
  decode (bytesOfWords [19, 97]) = .instr (.out (.lit 97)) [] ∧
  decode (bytesOfWords [3, 32775]) = .instr (.pop (.reg 7)) [] ∧
  decode (bytesOfWords [16, 32768, 5]) = .instr (.wmem (.reg 0) (.lit 5)) [] ∧
  decode (bytesOfWords [7, 0, 40000]) = .instr (.jt (.lit 0) (.invalid 40000)) [] ∧
  decode (bytesOfWords [17, 5]) = .instr (.call (.lit 5)) [] ∧
  decode (bytesOfWords [265, 32768, 4, 2]) = .unknownOpcode 265

/-! ### Operand resolution, registers, Memory -/

/-- R85 on raw words: literals are themselves, references give the register's content unchanged (the spec's decision
D8), invalid words raise. -/
def Obligations.ResolveRawWord : Prop :=
  ∀ (s : State) (w : Word),
    (w.toNat ≤ 32767 → resolve s (decodeOperand w) = .ok w) ∧
    (∀ r : Reg, w.toNat = 32768 + r.val → resolve s (decodeOperand w) = .ok s.x[r]) ∧
    (32776 ≤ w.toNat → resolve s (decodeOperand w) = .error ⟨.invalidOperand, w⟩)

/-- R86 on raw words: exactly the words 32768..32775 name a destination. -/
def Obligations.DestinationRawWord : Prop :=
  ∀ w : Word,
    (∀ r : Reg, w.toNat = 32768 + r.val → dst (decodeOperand w) = .ok r) ∧
    ((w.toNat ≤ 32767 ∨ 32776 ≤ w.toNat) → dst (decodeOperand w) = .error ⟨.invalidRegisterIndex, w⟩)

/-- R46, R45: in canonical memory a word written to a cell is read back, every other byte reads as before, the form is
kept, and an address above 32767 raises and touches nothing. -/
def Obligations.MemoryReadAfterWrite : Prop :=
  ∀ (s : State) (a v : Word), s.mem.wf = true →
    (a.toNat ≤ 32767 → ∃ t, memWrite s a v = .ok t ∧ t.mem.wf = true ∧ memRead t a = .ok v ∧
      ∀ k, k ≠ 2 * a.toNat → k ≠ 2 * a.toNat + 1 → t.mem.readByte k = s.mem.readByte k) ∧
    (a.toNat > 32767 → memWrite s a v = .error ⟨.addressOutOfRange, a⟩ ∧
      memRead s a = .error ⟨.addressOutOfRange, a⟩)

/-! ### The step -/

/-- R84, R93: when the bytes at `pc` of a RUNNING core decode to an instruction, the step is its body. -/
def Obligations.StepRunsDecodedInstruction : Prop :=
  ∀ (s : State) (i : Instr) (rest : List Byte), s.status = .running → s.pc.toNat < s.imageLen.val →
    decode (fetchWindow s) = .instr i rest → step s = exec i s

/-- R81: `pc` at or beyond `IMAGE_LEN` ends the run and changes nothing else. The case beyond it is the spec's decision
D4. -/
def Obligations.StepEndsAtImageEnd : Prop :=
  ∀ s : State, s.status = .running → s.imageLen.val ≤ s.pc.toNat → step s = .next { s with status := .ended }

/-- R164, R69: a word above 21 at `pc` raises UnknownOpcode with that word, before any operand word is read. -/
def Obligations.StepUnknownOpcode : Prop :=
  ∀ s : State, s.status = .running → s.pc.toNat < s.imageLen.val → (s.mem.readWord s.pc.toNat).toNat > 21 →
    step s = .next { s with status := .faulted, errKind := .unknownOpcode, errInfo := s.mem.readWord s.pc.toNat }

/-- R83: an operand word that would lie above 32767 raises AddressOutOfRange with the first such address, 32768. The
fault is the spec's decision D6. -/
def Obligations.StepOperandFetchOutOfRange : Prop :=
  ∀ (s : State) (sh : Shape), s.status = .running → s.pc.toNat < s.imageLen.val →
    opcodeMap (s.mem.readWord s.pc.toNat).toNat = some sh → s.pc.toNat + sh.arity > 32767 →
    step s = .next (s.faultedBy .addressOutOfRange 32768)

/-- R82, R83: where the operand words exist, the instruction decoded at `pc` is the one whose words are the cells from
`pc` on, whatever `IMAGE_LEN` is. The last clause is the spec's decision D5. -/
def Obligations.FetchReadsConsecutiveCells : Prop :=
  ∀ (s : State) (sh : Shape), opcodeMap (s.mem.readWord s.pc.toNat).toNat = some sh →
    s.pc.toNat + sh.arity ≤ 32767 →
    ∃ i rest, decode (fetchWindow s) = .instr i rest ∧ i.length = 1 + sh.arity ∧
      encodeWords i = (List.range (1 + sh.arity)).map fun k => s.mem.readWord (s.pc.toNat + k)

/-- R197: every step of a RUNNING core completes; a waiting core goes on, and is RUNNING, when and only when the host
has an input word. The list of the host's words and the fault without one are log entries 5 and 4. -/
def Obligations.RunningStepCompletes : Prop :=
  (∀ s : State, s.status = .running → ∃ t, step s = .next t) ∧
  (∀ (s : State) (r : Reg), s.status = .waitInput r →
    ((∃ t, step s = .next t) ↔ s.input ≠ []) ∧ ∀ t, step s = .next t → t.status = .running)

/-- R90, R166: a step that faults writes `STATUS`, `ERR_KIND`, `ERR_INFO` and nothing else, and records a kind. That
nothing is applied is the spec's decision D12. -/
def Obligations.FaultingStepWritesNothingElse : Prop :=
  ∀ s t : State, step s = .next t → t.status = .faulted →
    t.errKind ≠ .none ∧ t = { s with status := .faulted, errKind := t.errKind, errInfo := t.errInfo }

/-- R32: no step exists from a terminal status, and the codes of the statuses; R33: the codes of the error kinds; R38:
the host's readout exists after a stop only, and is the fields themselves. The codes and the readout are the spec's
decisions D17 and D19; that the model answers a fault named `runEnded` is log entry 3. -/
def Obligations.TerminalStatusIsAbsorbing : Prop :=
  (∀ s : State, s.status = .halted ∨ s.status = .ended ∨ s.status = .faulted → step s = .fault .runEnded) ∧
  (Status.running.code = 0 ∧ (∀ r, (Status.waitInput r).code = 1) ∧ Status.halted.code = 2 ∧ Status.ended.code = 3 ∧
    Status.faulted.code = 4) ∧
  (ErrKind.none.code = 0 ∧ ErrKind.invalidOperand.code = 1 ∧ ErrKind.invalidRegisterIndex.code = 2 ∧
    ErrKind.stackUnderflow.code = 3 ∧ ErrKind.unknownOpcode.code = 4 ∧ ErrKind.divisionByZero.code = 5 ∧
    ErrKind.addressOutOfRange.code = 6) ∧
  (∀ s : State, s.status = .halted ∨ s.status = .ended ∨ s.status = .faulted →
    s.readout = some ⟨s.x, s.pc, s.stack.length, s.status.code, s.errKind.code, s.errInfo, s.mem⟩) ∧
  (∀ s : State, (s.status = .running ∨ ∃ r, s.status = .waitInput r) → s.readout = none)

/-- R89, R25: where `pc` goes, as numbers, in every completed step; the addition never overflows. -/
def Obligations.NextCursorTable : Prop :=
  (∀ (s t : State) (i : Instr), Executes s i → step s = .next t →
    if t.status = .faulted then t.pc = s.pc
    else
      match i with
      | .halt => t.pc = s.pc
      | .inp _ => t.pc = s.pc
      | .jmp a => resolve s a = .ok t.pc
      | .call a => resolve s a = .ok t.pc
      | .ret => s.stack.head? = some t.pc
      | .jt a b => ∃ v, resolve s a = .ok v ∧
          if v = 0 then t.pc.toNat = s.pc.toNat + 3 else resolve s b = .ok t.pc
      | .jf a b => ∃ v, resolve s a = .ok v ∧
          if v = 0 then resolve s b = .ok t.pc else t.pc.toNat = s.pc.toNat + 3
      | .set _ _ => t.pc.toNat = s.pc.toNat + 3
      | .not _ _ => t.pc.toNat = s.pc.toNat + 3
      | .rmem _ _ => t.pc.toNat = s.pc.toNat + 3
      | .wmem _ _ => t.pc.toNat = s.pc.toNat + 3
      | .push _ => t.pc.toNat = s.pc.toNat + 2
      | .pop _ => t.pc.toNat = s.pc.toNat + 2
      | .out _ => t.pc.toNat = s.pc.toNat + 2
      | .noop => t.pc.toNat = s.pc.toNat + 1
      | .eq _ _ _ => t.pc.toNat = s.pc.toNat + 4
      | .gt _ _ _ => t.pc.toNat = s.pc.toNat + 4
      | .add _ _ _ => t.pc.toNat = s.pc.toNat + 4
      | .mult _ _ _ => t.pc.toNat = s.pc.toNat + 4
      | .mod _ _ _ => t.pc.toNat = s.pc.toNat + 4
      | .and _ _ _ => t.pc.toNat = s.pc.toNat + 4
      | .or _ _ _ => t.pc.toNat = s.pc.toNat + 4) ∧
  (∀ (s t : State) (r : Reg), s.Inv → s.status = .waitInput r → step s = .next t → t.pc.toNat = s.pc.toNat + 2)

/-! ### Invariants, reset and load -/

/-- Every step keeps the invariant: Memory canonical, no error recorded outside FAULTED and one in it (R33, R169), the
pending register of WAIT_INPUT the one its `in` names (R35), HALTED at a `halt` and ENDED beyond the image (R199). -/
def Obligations.StepKeepsInvariant : Prop := ∀ s t : State, s.Inv → step s = .next t → t.Inv

/-- The reset state meets the invariant. -/
def Obligations.ResetMeetsInvariant : Prop := State.reset.Inv

/-- R190: after reset and load (R191), every piece of state; an image longer than Memory has no initial state (R43).
Memory beyond the image and the status fields' reset values are the spec's decisions D2 and D17, the refusal D20. -/
def Obligations.InitLoadsImage : Prop :=
  ∀ image input : List Word,
    (image.length ≤ 32768 → ∃ s, State.init image input = some s ∧ s.Inv ∧
      (∀ r : Reg, s.x[r] = 0) ∧ s.pc = 0 ∧ s.stack = [] ∧ s.imageLen.val = image.length ∧
      (∀ k v, image[k]? = some v → s.mem.readWord k = v) ∧
      (∀ k, image.length ≤ k → s.mem.readWord k = 0) ∧
      s.status = .running ∧ s.errKind = .none ∧ s.errInfo = 0 ∧ s.output = [] ∧ s.input = input) ∧
    (32768 < image.length → State.init image input = none)

/-- R190 of `State.reset`: the fields the spec gives a reset value. That no image is loaded there (`IMAGE_LEN` 0) and
that the host has no word is the model's choice, log entries 9 and 5. -/
def Obligations.ResetValues : Prop :=
  (∀ r : Reg, State.reset.x[r] = 0) ∧ State.reset.pc = 0 ∧ State.reset.stack = [] ∧
  (∀ k, State.reset.mem.readWord k = 0) ∧ State.reset.status = .running ∧ State.reset.errKind = .none ∧
  State.reset.errInfo = 0 ∧ State.reset.output = []

/-- R42: a file of `n` words, low byte first, loads with `IMAGE_LEN = n`; byte `2k` is bits 7..0 of cell `k` and byte
`2k + 1` its bits 15..8. A file of odd length or of more than 32768 words is refused (R43, decision D20). -/
def Obligations.LoadLittleEndian : Prop :=
  ∀ (file : List Byte) (input : List Word),
    (∀ n, file.length = 2 * n → n ≤ 32768 → ∃ s, State.load file input = some s ∧ s.imageLen.val = n ∧
      ∀ k b, (file[2 * k]? = some b → lowByte (s.mem.readWord k) = b) ∧
        (file[2 * k + 1]? = some b → highByte (s.mem.readWord k) = b)) ∧
    (file.length % 2 = 1 ∨ 65536 < file.length → State.load file input = none)

/-! ### Whole-machine rules -/

/-- No instruction body observes or writes `IMAGE_LEN` (R31, R174) or the host's words: with other values in those
fields a body does the same to everything else. For `in` this is its first half, which checks the destination and
suspends; the word is taken by the delivery, a step of its own (R146, R148; stated by InSuspendsThenCompletes and
SuspensionKeepsState). R174 carries the decision D22; that the host's words are a list in State is log entry 5. -/
def Obligations.ExecIgnoresHostFields : Prop :=
  ∀ (i : Instr) (s t : State) (n : Fin 32769) (ws : List Word), exec i s = .next t →
    t.imageLen = s.imageLen ∧ t.input = s.input ∧
    exec i { s with imageLen := n, input := ws } = .next { t with imageLen := n, input := ws }

/-- R29, R41: during a run Memory is written only by `wmem`, and only in the cell it addresses. -/
def Obligations.OnlyWmemChangesMemory : Prop :=
  ∀ s t : State, s.mem.wf = true → step s = .next t →
    (∀ k, t.mem.readByte k = s.mem.readByte k) ∨
    ∃ a b addr, Executes s (.wmem a b) ∧ resolve s a = .ok addr ∧
      ∀ k, k ≠ 2 * addr.toNat → k ≠ 2 * addr.toNat + 1 → t.mem.readByte k = s.mem.readByte k

/-- R147, R55: a step emits nothing, or is one `out` and adds exactly its resolved Word at the end of the trace. The
trace is log entry 6. -/
def Obligations.OnlyOutEmits : Prop :=
  ∀ s t : State, step s = .next t →
    t.output = s.output ∨
    ∃ a v, Executes s (.out a) ∧ resolve s a = .ok v ∧ t.output = s.output ++ [v]

/-- R148: an input word is taken only in WAIT_INPUT, one at a time and in order, and is written unchanged; offered in
any other status it is not taken. The list of the host's words is log entry 5. -/
def Obligations.InputTakenOnlyWhenWaiting : Prop :=
  (∀ s t : State, step s = .next t → t.input ≠ s.input →
    ∃ r c, s.status = .waitInput r ∧ s.input = c :: t.input ∧ t.reg r = c ∧ t.status = .running) ∧
  (∀ (s : State) (c : Word), (∀ r, s.status ≠ .waitInput r) → deliver c s = s)

/-- R146: a step that suspends executes an `in` ("the sole suspension point") and changes only `STATUS`. R36: the step
out of the wait takes the host's first word into the register the `in` names, moves `pc` past the `in`, is RUNNING, and
changes nothing else. The list of the host's words is log entry 5. -/
def Obligations.SuspensionKeepsState : Prop :=
  (∀ (s t : State) (r : Reg), step s = .next t → t.status = .waitInput r →
    Executes s (.inp (.reg r)) ∧ t = { s with status := .waitInput r }) ∧
  (∀ (s t : State) (r : Reg), s.status = .waitInput r → step s = .next t →
    ∃ c, s.input = c :: t.input ∧
      t = { s with x := s.x.set r c, pc := s.pc + 2, status := .running, input := t.input })

/-- R126, R22: `add`, `mult`, `not` write at most 32767, `eq` and `gt` write 0 or 1, and `and`, `or`, `mod` write at
most 32767 whenever both inputs are. -/
def Obligations.ResultRanges : Prop :=
  ∀ (s t : State) (r : Reg) (b c : Operand),
    (∀ i ∈ [Instr.add (.reg r) b c, .mult (.reg r) b c, .not (.reg r) b], exec i s = .next t →
      t.status ≠ .faulted → (t.reg r).toNat ≤ 32767) ∧
    (∀ i ∈ [Instr.eq (.reg r) b c, .gt (.reg r) b c], exec i s = .next t →
      t.status ≠ .faulted → t.reg r = 0 ∨ t.reg r = 1) ∧
    (∀ i ∈ [Instr.and (.reg r) b c, .or (.reg r) b c, .mod (.reg r) b c], ∀ vb vc : Word,
      resolve s b = .ok vb → resolve s c = .ok vc → vb.toNat ≤ 32767 → vc.toNat ≤ 32767 → exec i s = .next t →
      t.status ≠ .faulted → (t.reg r).toNat ≤ 32767)

/-- R22 as an invariant, the premise of U6: registers and stack stay at most 32767 while no `rmem` reads a larger cell,
no `call` stands at 32766 or above, and the host supplies no larger code. -/
def Obligations.ValuesStayValues : Prop :=
  ∀ s t : State, s.valuesOnly → s.hostWithin 32767 →
    (∀ a b addr, Executes s (.rmem a b) → resolve s b = .ok addr → (s.mem.readWord addr.toNat).toNat ≤ 32767) →
    (∀ a, Executes s (.call a) → s.pc.toNat ≤ 32765) →
    step s = .next t → t.valuesOnly ∧ t.hostWithin 32767

/-- R127: the ring laws of `add` and `mult` modulo 32768, on the words they write. -/
def Obligations.ModularRingLaws : Prop :=
  ∀ a b c : Word,
    addWord a b = addWord b a ∧ multWord a b = multWord b a ∧
    addWord (addWord a b) c = addWord a (addWord b c) ∧ multWord (multWord a b) c = multWord a (multWord b c) ∧
    multWord a (addWord b c) = addWord (multWord a b) (multWord a c)

/-- R128: `add d, s, (32768 - k)` subtracts the literal `k` modulo 32768, and `not v` plus 1 is minus `v`. -/
def Obligations.AddSubtracts : Prop :=
  ∀ (s : State) (r : Reg) (b : Operand) (v : Word) (k : BitVec 15), resolve s b = .ok v → v.toNat ≤ 32767 →
    1 ≤ k.toNat →
    (∃ t, exec (.add (.reg r) b (.lit (BitVec.ofNat 15 (32768 - k.toNat)))) s = .next t ∧
      (t.reg r).toNat = if k.toNat ≤ v.toNat then v.toNat - k.toNat else 32768 + v.toNat - k.toNat) ∧
    (∃ t, execAll [.not (.reg r) b, .add (.reg r) (.reg r) (.lit 1)] s = .next t ∧
      (t.reg r).toNat = (32768 - v.toNat) % 32768)

/-- R28, for any number of pushes of operands with values and any destinations, repeated ones too. The pushes leave
their values in reverse order on top of the stack; pops write a stack's entries from the top into their registers, in
order; and together, with as many pops as pushes, the stack is as it was and the values come back in reverse push order,
the last one popped into a register staying there. The last two clauses: `push` and `ret`, `call` and `pop` share the
stack. The bodies run one after another, whatever `pc` is (log entry 8). -/
def Obligations.StackIsLifo : Prop :=
  (∀ (s : State) (ps : List (Operand × Word)), (∀ p ∈ ps, resolve s p.1 = .ok p.2) →
    execAll (ps.map fun p => .push p.1) s = .next { s with
      stack := (ps.map Prod.snd).reverse ++ s.stack, pc := s.pc + BitVec.ofNat 16 (2 * ps.length) }) ∧
  (∀ (s : State) (qs : List (Reg × Word)) (rest : List Word), s.stack = qs.map Prod.snd ++ rest →
    execAll (qs.map fun q => .pop (.reg q.1)) s = .next { s with
      x := qs.foldl (fun x q => x.set q.1 q.2) s.x, stack := rest,
      pc := s.pc + BitVec.ofNat 16 (2 * qs.length) }) ∧
  (∀ (s : State) (ps : List (Operand × Word)) (rs : List Reg), (∀ p ∈ ps, resolve s p.1 = .ok p.2) →
    rs.length = ps.length →
    execAll ((ps.map fun p => .push p.1) ++ rs.map fun r => .pop (.reg r)) s = .next { s with
      x := (rs.zip (ps.map Prod.snd).reverse).foldl (fun x q => x.set q.1 q.2) s.x,
      pc := s.pc + BitVec.ofNat 16 (4 * ps.length) }) ∧
  (∀ (s : State) (ps : List (Operand × Word)) (rs : List Reg) (r : Reg), (∀ p ∈ ps, resolve s p.1 = .ok p.2) →
    rs.length < ps.length →
    ∃ t, execAll ((ps.map fun p => .push p.1) ++ (rs ++ [r]).map fun r => .pop (.reg r)) s = .next t ∧
      (ps.map Prod.snd).reverse[rs.length]? = some (t.reg r)) ∧
  (∀ (s : State) (a : Operand) (v : Word), resolve s a = .ok v →
    execAll [.push a, .ret] s = .next { s with pc := v }) ∧
  (∀ (s : State) (a : Operand) (t : Word) (r : Reg), resolve s a = .ok t →
    execAll [.call a, .pop (.reg r)] s = .next { s with x := s.x.set r (s.pc + 2), pc := t + 2 })

/-- R141: a `ret` that meets the stack a `call` left resumes right after the call, with the stack at its depth before
the call. -/
def Obligations.CallThenRetResumes : Prop :=
  ∀ (s u : State) (a : Operand) (v : Word), resolve s a = .ok v →
    ∃ t, exec (.call a) s = .next t ∧ t.pc = v ∧
      (u.stack = t.stack → ∃ w, exec .ret u = .next w ∧ w.pc = s.pc + 2 ∧ w.stack = s.stack)

/-- R52, R195: after a `wmem`, the very next fetch sees the written Word in whichever of its cells was written, and a
write to the cell the next opcode is fetched from decides what the next step executes. -/
def Obligations.FetchSeesStore : Prop :=
  ∀ (s t : State) (a b : Operand) (addr v : Word), s.mem.wf = true → Executes s (.wmem a b) →
    resolve s a = .ok addr → resolve s b = .ok v → addr.toNat ≤ 32767 → step s = .next t →
    (∀ k, k ≤ 3 → addr.toNat = t.pc.toNat + k →
      (fetchWindow t)[2 * k]? = some (lowByte v) ∧ (fetchWindow t)[2 * k + 1]? = some (highByte v)) ∧
    (addr = t.pc → t.pc.toNat < t.imageLen.val →
      (v = 0 → step t = .next { t with status := .halted }) ∧
      (v = 21 → step t = .next { t with pc := t.pc + 1 }) ∧
      (v.toNat > 21 → step t = .next (t.faultedBy .unknownOpcode v)))

/-! ### Frames -/

/-- What `set`, `eq`, `gt`, `add`, `mult`, `mod`, `and`, `or`, `not`, `rmem` leave unchanged: every register but the
destination, the stack, every byte of Memory, `IMAGE_LEN`, the ports and, unless an error is raised, the status fields. -/
def Obligations.RegisterWritersFrame : Prop :=
  ∀ (s t : State) (a b c : Operand), ∀ i ∈ writesRegister a b c, exec i s = .next t →
    (∀ r, a ≠ .reg r → t.reg r = s.reg r) ∧ t.stack = s.stack ∧ SameMemory s t ∧ t.imageLen = s.imageLen ∧
      t.input = s.input ∧ t.output = s.output ∧ StatusKeptUnlessRaised s t

/-- What `push`, `pop`, `call`, `ret` leave unchanged: every register but the destination of `pop`, every byte of
Memory, `IMAGE_LEN`, the ports and, unless an error is raised, the status fields; the stack changes at its top only. -/
def Obligations.StackInstructionsFrame : Prop :=
  ∀ (s t : State) (a : Operand),
    (∀ i ∈ [Instr.push a, .pop a, .call a, .ret], exec i s = .next t →
      SameMemory s t ∧ t.imageLen = s.imageLen ∧ t.input = s.input ∧ t.output = s.output ∧
        StatusKeptUnlessRaised s t) ∧
    (∀ i ∈ [Instr.push a, .call a, .ret], exec i s = .next t → ∀ r, t.reg r = s.reg r) ∧
    (exec (.pop a) s = .next t → ∀ r, a ≠ .reg r → t.reg r = s.reg r) ∧
    (∀ i ∈ [Instr.push a, .call a], exec i s = .next t → t.stack = s.stack ∨ t.stack.tail = s.stack) ∧
    (∀ i ∈ [Instr.pop a, .ret], exec i s = .next t → t.stack = s.stack ∨ t.stack = s.stack.tail)

/-- What `jmp`, `jt`, `jf`, `noop`, `halt`, `out`, `in` leave unchanged: every register, the stack, every byte of
Memory, `IMAGE_LEN` and the host's words; the trace but for `out`, and the status fields but for `halt` and `in`,
unless an error is raised. -/
def Obligations.ControlAndPortFrame : Prop :=
  ∀ (s t : State) (a b : Operand),
    (∀ i ∈ [Instr.jmp a, .jt a b, .jf a b, .noop, .halt, .out a, .inp a], exec i s = .next t →
      (∀ r, t.reg r = s.reg r) ∧ t.stack = s.stack ∧ SameMemory s t ∧ t.imageLen = s.imageLen ∧ t.input = s.input) ∧
    (∀ i ∈ [Instr.jmp a, .jt a b, .jf a b, .noop, .halt, .inp a], exec i s = .next t → t.output = s.output) ∧
    (∀ i ∈ [Instr.jmp a, .jt a b, .jf a b, .noop, .out a], exec i s = .next t → StatusKeptUnlessRaised s t) ∧
    (∀ i ∈ [Instr.halt, .inp a], exec i s = .next t →
      t.status = .faulted ∨ (t.errKind = s.errKind ∧ t.errInfo = s.errInfo))

/-- What `wmem` leaves unchanged: every register, the stack, `IMAGE_LEN`, the ports, the status fields unless an error
is raised, and every byte but the two of the cell its first operand resolves to; a form that stores nothing leaves all
of Memory. -/
def Obligations.WmemFrame : Prop :=
  ∀ (s t : State) (a b : Operand), s.mem.wf = true → exec (.wmem a b) s = .next t →
    (∀ r, t.reg r = s.reg r) ∧ t.stack = s.stack ∧ t.imageLen = s.imageLen ∧ t.input = s.input ∧
      t.output = s.output ∧ StatusKeptUnlessRaised s t ∧
      (∀ addr, resolve s a = .ok addr →
        ∀ k, k ≠ 2 * addr.toNat → k ≠ 2 * addr.toNat + 1 → t.mem.readByte k = s.mem.readByte k) ∧
      ((∀ addr v, resolve s a = .ok addr → resolve s b = .ok v → addr.toNat > 32767) → SameMemory s t)
end

