-- ==== Sys2Proof/Laws/Memory.lean ====
section
/-! SUPPORT. Memory: every write keeps the canonical form, reads after writes, and equal reads make equal memories. -/

namespace Sys2Proof.Machine

theorem Memory.wfFrom_cons {lo a : Nat} {v : Byte} {m : Memory} :
    Memory.wfFrom lo ((a, v) :: m) = true ↔
      lo ≤ a ∧ a < memBytes ∧ v ≠ unlistedByte ∧ Memory.wfFrom (a + 1) m = true := by
  simp [Memory.wfFrom, and_assoc]

theorem Memory.wfFrom_mono {m : Memory} {lo lo' : Nat} (h : lo' ≤ lo) (hm : Memory.wfFrom lo m = true) :
    Memory.wfFrom lo' m = true := by
  cases m with
  | nil => rfl
  | cons c m =>
    obtain ⟨h1, h2, h3, h4⟩ := Memory.wfFrom_cons.1 hm
    exact Memory.wfFrom_cons.2 ⟨by omega, h2, h3, h4⟩

/-- Below the first address allowed, every byte is unlisted. -/
theorem Memory.readByte_below {m : Memory} {lo a : Nat} (h : a < lo) (hm : Memory.wfFrom lo m = true) :
    m.readByte a = unlistedByte := by
  induction m generalizing lo with
  | nil => rfl
  | cons c m ih =>
    obtain ⟨k, v⟩ := c
    obtain ⟨h1, _, _, h4⟩ := Memory.wfFrom_cons.1 hm
    have hk : k ≠ a := by omega
    simp only [Memory.readByte, hk, if_false]
    exact ih (lo := k + 1) (by omega) h4

theorem Memory.wfFrom_writeByte {m : Memory} {lo a : Nat} (b : Byte) (hlo : lo ≤ a) (ha : a < memBytes)
    (hm : Memory.wfFrom lo m = true) : Memory.wfFrom lo (m.writeByte a b) = true := by
  induction m generalizing lo with
  | nil =>
    unfold Memory.writeByte
    split
    · rfl
    · next hb => exact Memory.wfFrom_cons.2 ⟨hlo, ha, hb, rfl⟩
  | cons c m ih =>
    obtain ⟨k, v⟩ := c
    obtain ⟨h1, h2, h3, h4⟩ := Memory.wfFrom_cons.1 hm
    unfold Memory.writeByte
    split
    · next hk => exact Memory.wfFrom_cons.2 ⟨h1, h2, h3, ih (lo := k + 1) (by omega) h4⟩
    · next hk =>
      split
      · next he =>
        subst he
        split
        · exact Memory.wfFrom_mono (by omega) h4
        · next hb => exact Memory.wfFrom_cons.2 ⟨hlo, ha, hb, h4⟩
      · next he =>
        split
        · exact hm
        · next hb =>
          exact Memory.wfFrom_cons.2 ⟨hlo, ha, hb, Memory.wfFrom_cons.2 ⟨by omega, h2, h3, h4⟩⟩

theorem Memory.readByte_writeByte {m : Memory} {lo : Nat} (a : Nat) (b : Byte) (c : Nat)
    (hm : Memory.wfFrom lo m = true) :
    (m.writeByte a b).readByte c = if c = a then b else m.readByte c := by
  induction m generalizing lo with
  | nil =>
    unfold Memory.writeByte
    by_cases hb : b = unlistedByte <;> by_cases hc : c = a
    · simp [hb, hc, Memory.readByte]
    · simp [hb, hc, Memory.readByte]
    · simp [hb, hc, Memory.readByte]
    · simp [hb, hc, Memory.readByte, Ne.symm hc]
  | cons d m ih =>
    obtain ⟨k, v⟩ := d
    obtain ⟨h1, h2, h3, h4⟩ := Memory.wfFrom_cons.1 hm
    unfold Memory.writeByte
    by_cases hka : k < a
    · simp only [hka, if_true, Memory.readByte, ih h4]
      by_cases hkc : k = c
      · have hca : c ≠ a := by omega
        simp [hkc, hca]
      · simp [hkc]
    · simp only [hka, if_false]
      by_cases hk : k = a
      · subst hk
        simp only [if_true]
        by_cases hb : b = unlistedByte
        · simp only [hb, if_true, Memory.readByte]
          by_cases hc : c = k
          · subst hc
            simp [Memory.readByte_below (Nat.lt_succ_self c) h4]
          · simp [hc, Ne.symm hc]
        · simp only [hb, if_false, Memory.readByte]
          by_cases hc : c = k
          · simp [hc]
          · simp [hc, Ne.symm hc]
      · simp only [hk, if_false]
        by_cases hb : b = unlistedByte
        · simp only [hb, if_true]
          by_cases hc : c = a
          · subst hc
            have : Memory.wfFrom k ((k, v) :: m) = true := Memory.wfFrom_cons.2 ⟨Nat.le_refl k, h2, h3, h4⟩
            simp [Memory.readByte_below (show c < k by omega) this]
          · simp [hc]
        · simp only [hb, if_false]
          by_cases hc : c = a
          · subst hc
            simp [Memory.readByte]
          · simp [hc, Ne.symm hc, Memory.readByte]

/-- A byte write keeps the canonical form. -/
theorem Memory.wf_writeByte {m : Memory} {a : Nat} (b : Byte) (ha : a < memBytes) (hm : m.wf = true) :
    (m.writeByte a b).wf = true :=
  Memory.wfFrom_writeByte b (Nat.zero_le a) ha hm

/-! ### Words and their bytes -/

theorem wordOfBytes_low_high (w : Word) : wordOfBytes (lowByte w) (highByte w) = w := by
  simp only [wordOfBytes, lowByte, highByte]
  ext i hi
  simp only [BitVec.getElem_append, BitVec.getElem_extractLsb']
  split
  · simp [BitVec.getLsbD_eq_getElem hi]
  · next h =>
    have : 8 + (i - 8) = i := by omega
    simp [this, BitVec.getLsbD_eq_getElem hi]

theorem lowByte_wordOfBytes (lo hi : Byte) : lowByte (wordOfBytes lo hi) = lo := by
  ext i h
  have e : (wordOfBytes lo hi).getLsbD i = _ := BitVec.getLsbD_append
  simp [lowByte, e, h]

theorem highByte_wordOfBytes (lo hi : Byte) : highByte (wordOfBytes lo hi) = hi := by
  ext i h
  have e : (wordOfBytes lo hi).getLsbD (8 + i) = _ := BitVec.getLsbD_append
  simp [highByte, e, BitVec.getLsbD_eq_getElem h]

/-! ### Word cells -/

/-- A word write keeps the canonical form. -/
theorem Memory.wf_writeWord {m : Memory} {k : Nat} (w : Word) (hk : k < Config.memWords) (hm : m.wf = true) :
    (m.writeWord k w).wf = true := by
  unfold Config.memWords at hk
  exact Memory.wf_writeByte _ (by unfold memBytes; omega) (Memory.wf_writeByte _ (by unfold memBytes; omega) hm)

/-- A byte read after a word write. -/
theorem Memory.readByte_writeWord {m : Memory} {k : Nat} (w : Word) (c : Nat) (hk : k < Config.memWords)
    (hm : m.wf = true) :
    (m.writeWord k w).readByte c =
      if c = 2 * k then lowByte w else if c = 2 * k + 1 then highByte w else m.readByte c := by
  unfold Config.memWords at hk
  have h1 : (m.writeByte (2 * k) (lowByte w)).wf = true := Memory.wf_writeByte _ (by unfold memBytes; omega) hm
  rw [Memory.writeWord, Memory.readByte_writeByte (2 * k + 1) _ c h1, Memory.readByte_writeByte (2 * k) _ c hm]
  by_cases h : c = 2 * k
  · have : c ≠ 2 * k + 1 := by omega
    simp [h]
  · simp [h]

/-- A word read after a word write (R46). -/
theorem Memory.readWord_writeWord {m : Memory} {k : Nat} (w : Word) (j : Nat) (hk : k < Config.memWords)
    (hm : m.wf = true) : (m.writeWord k w).readWord j = if j = k then w else m.readWord j := by
  rw [Memory.readWord, Memory.readByte_writeWord w _ hk hm, Memory.readByte_writeWord w _ hk hm]
  by_cases h : j = k
  · subst h
    simp [wordOfBytes_low_high]
  · have h1 : 2 * j ≠ 2 * k := by omega
    have h2 : 2 * j ≠ 2 * k + 1 := by omega
    have h3 : 2 * j + 1 ≠ 2 * k := by omega
    simp [h, h1, h2, h3, Memory.readWord]

theorem Memory.wf_writeBytes {m : Memory} {a : Nat} (bs : List Byte) (hm : m.wf = true) :
    (m.writeBytes a bs).wf = true := by
  induction bs generalizing m a with
  | nil => exact hm
  | cons b bs ih =>
    unfold Memory.writeBytes
    split
    · next h => exact ih (Memory.wf_writeByte b h hm)
    · exact hm

theorem Memory.wf_writeWords {m : Memory} {k : Nat} (ws : List Word) (hm : m.wf = true) :
    (m.writeWords k ws).wf = true := by
  induction ws generalizing m k with
  | nil => exact hm
  | cons w ws ih =>
    unfold Memory.writeWords
    split
    · next h => exact ih (Memory.wf_writeWord w h hm)
    · exact hm

/-- A word read after a block of words has been written. -/
theorem Memory.readWord_writeWords {m : Memory} {k : Nat} (ws : List Word) (hm : m.wf = true)
    (hk : k + ws.length ≤ Config.memWords) (j : Nat) :
    (m.writeWords k ws).readWord j =
      if h : k ≤ j ∧ j < k + ws.length then ws[j - k]'(by omega) else m.readWord j := by
  induction ws generalizing m k with
  | nil =>
    have : ¬(k ≤ j ∧ j < k + ([] : List Word).length) := by simp
    simp only [Memory.writeWords, this, dite_false]
  | cons w ws ih =>
    have hlt : k < Config.memWords := by simp at hk; omega
    rw [Memory.writeWords, if_pos hlt, ih (Memory.wf_writeWord w hlt hm) (by simp at hk; omega),
      Memory.readWord_writeWord w j hlt hm]
    by_cases h1 : k + 1 ≤ j ∧ j < k + 1 + ws.length
    · have h2 : k ≤ j ∧ j < k + (w :: ws).length := by simp; omega
      have h3 : j - k = (j - (k + 1)) + 1 := by omega
      simp only [h1, h2, dite_true, and_self, h3, List.getElem_cons_succ]
    · by_cases h2 : j = k
      · subst h2
        simp
      · have h3 : ¬(k ≤ j ∧ j < k + (w :: ws).length) := by simp; omega
        simp only [h1, h3, h2, dite_false, if_false]

/-- Canonical memories that read alike are equal lists. -/
theorem Memory.eq_of_readByte_from {m m' : Memory} {lo : Nat} (hm : Memory.wfFrom lo m = true)
    (hm' : Memory.wfFrom lo m' = true) (h : ∀ a, m.readByte a = m'.readByte a) : m = m' := by
  induction m generalizing lo m' with
  | nil =>
    cases m' with
    | nil => rfl
    | cons c m' =>
      obtain ⟨k, v⟩ := c
      have := h k
      simp [Memory.readByte] at this
      exact absurd this.symm (Memory.wfFrom_cons.1 hm').2.2.1
  | cons c m ih =>
    obtain ⟨k, v⟩ := c
    obtain ⟨h1, h2, h3, h4⟩ := Memory.wfFrom_cons.1 hm
    cases m' with
    | nil =>
      have := h k
      simp [Memory.readByte] at this
      exact absurd this h3
    | cons c' m' =>
      obtain ⟨k', v'⟩ := c'
      obtain ⟨g1, g2, g3, g4⟩ := Memory.wfFrom_cons.1 hm'
      have hkk : k = k' := by
        rcases Nat.lt_trichotomy k k' with hlt | heq | hgt
        · have e := h k
          rw [Memory.readByte_below (lo := k') hlt (Memory.wfFrom_cons.2 ⟨Nat.le_refl _, g2, g3, g4⟩)] at e
          simp [Memory.readByte] at e
          exact absurd e h3
        · exact heq
        · have e := h k'
          rw [Memory.readByte_below (lo := k) hgt (Memory.wfFrom_cons.2 ⟨Nat.le_refl _, h2, h3, h4⟩)] at e
          simp [Memory.readByte] at e
          exact absurd e.symm g3
      subst hkk
      have hv : v = v' := by simpa [Memory.readByte] using h k
      subst hv
      have htl : m = m' := by
        refine ih h4 g4 fun a => ?_
        have e := h a
        by_cases hak : k = a
        · subst hak
          rw [Memory.readByte_below (Nat.lt_succ_self k) h4, Memory.readByte_below (Nat.lt_succ_self k) g4]
        · simpa [Memory.readByte, hak] using e
      rw [htl]

/-- The reset state's memory is canonical. -/
theorem State.reset_mem_wf : State.reset.mem.wf = true := rfl

/-- Equal memories are equal data: canonical memories that read alike at every address are equal. -/
theorem Memory.eq_of_readByte {m m' : Memory} (hm : m.wf = true) (hm' : m'.wf = true)
    (h : ∀ a, m.readByte a = m'.readByte a) : m = m' :=
  Memory.eq_of_readByte_from hm hm' h

end Sys2Proof.Machine
end

