-- ==== Sys2Proof/Laws/Decode.lean ====
section
/-! SUPPORT. Operand words and byte sequences: each direction undoes the other. -/

namespace Sys2Proof

theorem toNat_encodeOperand_reg (r : Reg) : (encodeOperand (.reg r)).toNat = 32768 + r.val := by
  have := r.isLt
  simp only [encodeOperand, BitVec.toNat_ofNat, Config.regBase]
  omega

theorem toNat_encodeOperand_lit (v : BitVec 15) : (encodeOperand (.lit v)).toNat = v.toNat := by
  have := v.isLt
  simp only [encodeOperand, BitVec.toNat_setWidth]
  omega

/-- Decoding an operand's word gives it back. -/
theorem decodeOperand_encodeOperand (o : Operand) (h : o.wf = true) : decodeOperand (encodeOperand o) = o := by
  cases o with
  | lit v =>
    have hv := v.isLt
    unfold decodeOperand
    rw [if_pos (by rw [toNat_encodeOperand_lit]; unfold Config.valueMax; omega)]
    congr 1
    apply BitVec.eq_of_toNat_eq
    rw [BitVec.toNat_setWidth, toNat_encodeOperand_lit]
    omega
  | reg r =>
    have hr := r.isLt
    have e := toNat_encodeOperand_reg r
    unfold decodeOperand
    rw [if_neg (by rw [e]; unfold Config.valueMax; omega), dif_pos (by rw [e]; unfold Config.regTop; omega)]
    refine congrArg Operand.reg (Fin.ext ?_)
    show (encodeOperand (.reg r)).toNat - 32768 = r.val
    omega
  | invalid w =>
    have hw : 32775 < w.toNat := of_decide_eq_true h
    have h1 : ¬ w.toNat ≤ Config.valueMax := by unfold Config.valueMax; omega
    have h2 : ¬ w.toNat ≤ Config.regTop := by unfold Config.regTop; omega
    rw [encodeOperand, decodeOperand, if_neg h1, dif_neg h2]

/-- The raw word of a decoded operand is the word it was decoded from. -/
theorem encodeOperand_decodeOperand (w : Word) : encodeOperand (decodeOperand w) = w := by
  apply BitVec.eq_of_toNat_eq
  have hw := w.isLt
  unfold decodeOperand Config.valueMax Config.regTop
  split
  · rw [toNat_encodeOperand_lit, BitVec.toNat_setWidth]
    omega
  · split
    · rw [toNat_encodeOperand_reg]
      simp only [Config.regBase]
      omega
    · rfl

/-- A decoded operand is well formed. -/
theorem wf_decodeOperand (w : Word) : (decodeOperand w).wf = true := by
  unfold decodeOperand
  split
  · rfl
  · split
    · rfl
    · next h => exact decide_eq_true (Nat.lt_of_not_le h)

theorem takeWord_bytes (w : Word) (rest : List Byte) : takeWord (lowByte w :: highByte w :: rest) = some (w, rest) := by
  simp [takeWord, Machine.wordOfBytes_low_high]

theorem takeWord_eq_some {bs rest : List Byte} {w : Word} (h : takeWord bs = some (w, rest)) :
    bs = lowByte w :: highByte w :: rest := by
  match bs, h with
  | lo :: hi :: r, h =>
    simp only [takeWord, Option.some.injEq, Prod.mk.injEq] at h
    obtain ⟨rfl, rfl⟩ := h
    rw [Machine.lowByte_wordOfBytes, Machine.highByte_wordOfBytes]

/-- An opcode is known exactly when it is at most 21 (R69). -/
theorem opcodeMap_eq_none_iff (n : Nat) : opcodeMap n = none ↔ 21 < n := by
  constructor
  · intro h
    by_contra hn
    have : n ≤ 21 := by omega
    interval_cases n <;> simp [opcodeMap] at h
  · intro h
    unfold opcodeMap
    split <;> first | omega | rfl

/-- `decode` after its first word. -/
theorem decode_word (op : Word) (rest : List Byte) :
    decode (lowByte op :: highByte op :: rest) =
      match opcodeMap op.toNat with
      | none => .unknownOpcode op
      | some shape => shape.read rest := by
  cases h : opcodeMap op.toNat <;> simp [decode, takeWord_bytes, h]

/-- What `Shape.read` can answer when it answers an instruction. -/
theorem Shape.read_eq_instr {sh : Shape} {bs rest : List Byte} {i : Instr} (h : sh.read bs = .instr i rest) :
    (sh = .f0 i ∧ bs = rest) ∨
    (∃ mk a, sh = .f1 mk ∧ i = mk (decodeOperand a) ∧ bs = bytesOfWords [a] ++ rest) ∨
    (∃ mk a b, sh = .f2 mk ∧ i = mk (decodeOperand a) (decodeOperand b) ∧ bs = bytesOfWords [a, b] ++ rest) ∨
    (∃ mk a b c, sh = .f3 mk ∧ i = mk (decodeOperand a) (decodeOperand b) (decodeOperand c) ∧
      bs = bytesOfWords [a, b, c] ++ rest) := by
  cases sh with
  | f0 j =>
    simp only [Shape.read, Decoded.instr.injEq] at h
    exact .inl ⟨by rw [h.1], h.2⟩
  | f1 mk =>
    simp only [Shape.read] at h
    split at h
    · cases h
    · next a r ha =>
      cases h
      exact .inr (.inl ⟨mk, a, rfl, rfl, by rw [takeWord_eq_some ha]; rfl⟩)
  | f2 mk =>
    simp only [Shape.read] at h
    split at h
    · cases h
    · next a r ha =>
      split at h
      · cases h
      · next b r' hb =>
        cases h
        exact .inr (.inr (.inl ⟨mk, a, b, rfl, rfl, by rw [takeWord_eq_some ha, takeWord_eq_some hb]; rfl⟩))
  | f3 mk =>
    simp only [Shape.read] at h
    split at h
    · cases h
    · next a r ha =>
      split at h
      · cases h
      · next b r' hb =>
        split at h
        · cases h
        · next c r'' hc =>
          cases h
          exact .inr (.inr (.inr ⟨mk, a, b, c, rfl, rfl, by
            rw [takeWord_eq_some ha, takeWord_eq_some hb, takeWord_eq_some hc]; rfl⟩))

end Sys2Proof
end

