-- ==== Sys2Proof/Laws/State.lean ====
section
/-! SUPPORT. One lemma per field per update of State, and the register file's read after write. -/

namespace Sys2Proof.Machine

variable (s : State)

/-! ### Registers -/

@[simp] theorem State.reg_setReg_same (r : Reg) (v : Word) : (s.setReg r v).reg r = v := by
  simp [State.reg, State.setReg]

theorem State.reg_setReg_ne {r q : Reg} (h : q ≠ r) (v : Word) : (s.setReg r v).reg q = s.reg q := by
  have hv : r.val ≠ q.val := fun e => h (Fin.ext e.symm)
  simp [State.reg, State.setReg, hv]

theorem State.reg_setReg (r q : Reg) (v : Word) : (s.setReg r v).reg q = if q = r then v else s.reg q := by
  split
  · next h => rw [h, State.reg_setReg_same]
  · next h => exact State.reg_setReg_ne s h v

/-! ### setReg -/

@[simp] theorem State.setReg_x (r : Reg) (v : Word) : (s.setReg r v).x = s.x.set r v := rfl
@[simp] theorem State.setReg_pc (r : Reg) (v : Word) : (s.setReg r v).pc = s.pc := rfl
@[simp] theorem State.setReg_stack (r : Reg) (v : Word) : (s.setReg r v).stack = s.stack := rfl
@[simp] theorem State.setReg_mem (r : Reg) (v : Word) : (s.setReg r v).mem = s.mem := rfl
@[simp] theorem State.setReg_imageLen (r : Reg) (v : Word) : (s.setReg r v).imageLen = s.imageLen := rfl
@[simp] theorem State.setReg_status (r : Reg) (v : Word) : (s.setReg r v).status = s.status := rfl
@[simp] theorem State.setReg_errKind (r : Reg) (v : Word) : (s.setReg r v).errKind = s.errKind := rfl
@[simp] theorem State.setReg_errInfo (r : Reg) (v : Word) : (s.setReg r v).errInfo = s.errInfo := rfl
@[simp] theorem State.setReg_input (r : Reg) (v : Word) : (s.setReg r v).input = s.input := rfl
@[simp] theorem State.setReg_output (r : Reg) (v : Word) : (s.setReg r v).output = s.output := rfl

/-! ### setPc -/

@[simp] theorem State.setPc_x (t : Word) : (s.setPc t).x = s.x := rfl
@[simp] theorem State.setPc_pc (t : Word) : (s.setPc t).pc = t := rfl
@[simp] theorem State.setPc_stack (t : Word) : (s.setPc t).stack = s.stack := rfl
@[simp] theorem State.setPc_mem (t : Word) : (s.setPc t).mem = s.mem := rfl
@[simp] theorem State.setPc_imageLen (t : Word) : (s.setPc t).imageLen = s.imageLen := rfl
@[simp] theorem State.setPc_status (t : Word) : (s.setPc t).status = s.status := rfl
@[simp] theorem State.setPc_errKind (t : Word) : (s.setPc t).errKind = s.errKind := rfl
@[simp] theorem State.setPc_errInfo (t : Word) : (s.setPc t).errInfo = s.errInfo := rfl
@[simp] theorem State.setPc_input (t : Word) : (s.setPc t).input = s.input := rfl
@[simp] theorem State.setPc_output (t : Word) : (s.setPc t).output = s.output := rfl
@[simp] theorem State.setPc_reg (t : Word) (q : Reg) : (s.setPc t).reg q = s.reg q := rfl

/-! ### advance -/

@[simp] theorem State.advance_x (n : Nat) : (s.advance n).x = s.x := rfl
@[simp] theorem State.advance_pc (n : Nat) : (s.advance n).pc = s.pc + BitVec.ofNat 16 n := rfl
@[simp] theorem State.advance_stack (n : Nat) : (s.advance n).stack = s.stack := rfl
@[simp] theorem State.advance_mem (n : Nat) : (s.advance n).mem = s.mem := rfl
@[simp] theorem State.advance_imageLen (n : Nat) : (s.advance n).imageLen = s.imageLen := rfl
@[simp] theorem State.advance_status (n : Nat) : (s.advance n).status = s.status := rfl
@[simp] theorem State.advance_errKind (n : Nat) : (s.advance n).errKind = s.errKind := rfl
@[simp] theorem State.advance_errInfo (n : Nat) : (s.advance n).errInfo = s.errInfo := rfl
@[simp] theorem State.advance_input (n : Nat) : (s.advance n).input = s.input := rfl
@[simp] theorem State.advance_output (n : Nat) : (s.advance n).output = s.output := rfl
@[simp] theorem State.advance_reg (n : Nat) (q : Reg) : (s.advance n).reg q = s.reg q := rfl

/-! ### setStack -/

@[simp] theorem State.setStack_x (st : List Word) : (s.setStack st).x = s.x := rfl
@[simp] theorem State.setStack_pc (st : List Word) : (s.setStack st).pc = s.pc := rfl
@[simp] theorem State.setStack_stack (st : List Word) : (s.setStack st).stack = st := rfl
@[simp] theorem State.setStack_mem (st : List Word) : (s.setStack st).mem = s.mem := rfl
@[simp] theorem State.setStack_imageLen (st : List Word) : (s.setStack st).imageLen = s.imageLen := rfl
@[simp] theorem State.setStack_status (st : List Word) : (s.setStack st).status = s.status := rfl
@[simp] theorem State.setStack_errKind (st : List Word) : (s.setStack st).errKind = s.errKind := rfl
@[simp] theorem State.setStack_errInfo (st : List Word) : (s.setStack st).errInfo = s.errInfo := rfl
@[simp] theorem State.setStack_input (st : List Word) : (s.setStack st).input = s.input := rfl
@[simp] theorem State.setStack_output (st : List Word) : (s.setStack st).output = s.output := rfl
@[simp] theorem State.setStack_reg (st : List Word) (q : Reg) : (s.setStack st).reg q = s.reg q := rfl

/-! ### push -/

@[simp] theorem State.push_x (v : Word) : (s.push v).x = s.x := rfl
@[simp] theorem State.push_pc (v : Word) : (s.push v).pc = s.pc := rfl
@[simp] theorem State.push_stack (v : Word) : (s.push v).stack = v :: s.stack := rfl
@[simp] theorem State.push_mem (v : Word) : (s.push v).mem = s.mem := rfl
@[simp] theorem State.push_imageLen (v : Word) : (s.push v).imageLen = s.imageLen := rfl
@[simp] theorem State.push_status (v : Word) : (s.push v).status = s.status := rfl
@[simp] theorem State.push_errKind (v : Word) : (s.push v).errKind = s.errKind := rfl
@[simp] theorem State.push_errInfo (v : Word) : (s.push v).errInfo = s.errInfo := rfl
@[simp] theorem State.push_input (v : Word) : (s.push v).input = s.input := rfl
@[simp] theorem State.push_output (v : Word) : (s.push v).output = s.output := rfl
@[simp] theorem State.push_reg (v : Word) (q : Reg) : (s.push v).reg q = s.reg q := rfl

/-! ### setMem -/

@[simp] theorem State.setMem_x (m : Memory) : (s.setMem m).x = s.x := rfl
@[simp] theorem State.setMem_pc (m : Memory) : (s.setMem m).pc = s.pc := rfl
@[simp] theorem State.setMem_stack (m : Memory) : (s.setMem m).stack = s.stack := rfl
@[simp] theorem State.setMem_mem (m : Memory) : (s.setMem m).mem = m := rfl
@[simp] theorem State.setMem_imageLen (m : Memory) : (s.setMem m).imageLen = s.imageLen := rfl
@[simp] theorem State.setMem_status (m : Memory) : (s.setMem m).status = s.status := rfl
@[simp] theorem State.setMem_errKind (m : Memory) : (s.setMem m).errKind = s.errKind := rfl
@[simp] theorem State.setMem_errInfo (m : Memory) : (s.setMem m).errInfo = s.errInfo := rfl
@[simp] theorem State.setMem_input (m : Memory) : (s.setMem m).input = s.input := rfl
@[simp] theorem State.setMem_output (m : Memory) : (s.setMem m).output = s.output := rfl
@[simp] theorem State.setMem_reg (m : Memory) (q : Reg) : (s.setMem m).reg q = s.reg q := rfl

/-! ### setStatus -/

@[simp] theorem State.setStatus_x (t : Status) : (s.setStatus t).x = s.x := rfl
@[simp] theorem State.setStatus_pc (t : Status) : (s.setStatus t).pc = s.pc := rfl
@[simp] theorem State.setStatus_stack (t : Status) : (s.setStatus t).stack = s.stack := rfl
@[simp] theorem State.setStatus_mem (t : Status) : (s.setStatus t).mem = s.mem := rfl
@[simp] theorem State.setStatus_imageLen (t : Status) : (s.setStatus t).imageLen = s.imageLen := rfl
@[simp] theorem State.setStatus_status (t : Status) : (s.setStatus t).status = t := rfl
@[simp] theorem State.setStatus_errKind (t : Status) : (s.setStatus t).errKind = s.errKind := rfl
@[simp] theorem State.setStatus_errInfo (t : Status) : (s.setStatus t).errInfo = s.errInfo := rfl
@[simp] theorem State.setStatus_input (t : Status) : (s.setStatus t).input = s.input := rfl
@[simp] theorem State.setStatus_output (t : Status) : (s.setStatus t).output = s.output := rfl
@[simp] theorem State.setStatus_reg (t : Status) (q : Reg) : (s.setStatus t).reg q = s.reg q := rfl

/-! ### emit -/

@[simp] theorem State.emit_x (v : Word) : (s.emit v).x = s.x := rfl
@[simp] theorem State.emit_pc (v : Word) : (s.emit v).pc = s.pc := rfl
@[simp] theorem State.emit_stack (v : Word) : (s.emit v).stack = s.stack := rfl
@[simp] theorem State.emit_mem (v : Word) : (s.emit v).mem = s.mem := rfl
@[simp] theorem State.emit_imageLen (v : Word) : (s.emit v).imageLen = s.imageLen := rfl
@[simp] theorem State.emit_status (v : Word) : (s.emit v).status = s.status := rfl
@[simp] theorem State.emit_errKind (v : Word) : (s.emit v).errKind = s.errKind := rfl
@[simp] theorem State.emit_errInfo (v : Word) : (s.emit v).errInfo = s.errInfo := rfl
@[simp] theorem State.emit_input (v : Word) : (s.emit v).input = s.input := rfl
@[simp] theorem State.emit_output (v : Word) : (s.emit v).output = s.output ++ [v] := rfl
@[simp] theorem State.emit_reg (v : Word) (q : Reg) : (s.emit v).reg q = s.reg q := rfl

/-! ### setInput -/

@[simp] theorem State.setInput_x (ws : List Word) : (s.setInput ws).x = s.x := rfl
@[simp] theorem State.setInput_pc (ws : List Word) : (s.setInput ws).pc = s.pc := rfl
@[simp] theorem State.setInput_stack (ws : List Word) : (s.setInput ws).stack = s.stack := rfl
@[simp] theorem State.setInput_mem (ws : List Word) : (s.setInput ws).mem = s.mem := rfl
@[simp] theorem State.setInput_imageLen (ws : List Word) : (s.setInput ws).imageLen = s.imageLen := rfl
@[simp] theorem State.setInput_status (ws : List Word) : (s.setInput ws).status = s.status := rfl
@[simp] theorem State.setInput_errKind (ws : List Word) : (s.setInput ws).errKind = s.errKind := rfl
@[simp] theorem State.setInput_errInfo (ws : List Word) : (s.setInput ws).errInfo = s.errInfo := rfl
@[simp] theorem State.setInput_input (ws : List Word) : (s.setInput ws).input = ws := rfl
@[simp] theorem State.setInput_output (ws : List Word) : (s.setInput ws).output = s.output := rfl
@[simp] theorem State.setInput_reg (ws : List Word) (q : Reg) : (s.setInput ws).reg q = s.reg q := rfl

/-! ### faultedBy -/

@[simp] theorem State.faultedBy_x (k : ErrKind) (info : Word) : (s.faultedBy k info).x = s.x := rfl
@[simp] theorem State.faultedBy_pc (k : ErrKind) (info : Word) : (s.faultedBy k info).pc = s.pc := rfl
@[simp] theorem State.faultedBy_stack (k : ErrKind) (info : Word) : (s.faultedBy k info).stack = s.stack := rfl
@[simp] theorem State.faultedBy_mem (k : ErrKind) (info : Word) : (s.faultedBy k info).mem = s.mem := rfl
@[simp] theorem State.faultedBy_imageLen (k : ErrKind) (info : Word) : (s.faultedBy k info).imageLen = s.imageLen := rfl
@[simp] theorem State.faultedBy_status (k : ErrKind) (info : Word) : (s.faultedBy k info).status = .faulted := rfl
@[simp] theorem State.faultedBy_errKind (k : ErrKind) (info : Word) : (s.faultedBy k info).errKind = k := rfl
@[simp] theorem State.faultedBy_errInfo (k : ErrKind) (info : Word) : (s.faultedBy k info).errInfo = info := rfl
@[simp] theorem State.faultedBy_input (k : ErrKind) (info : Word) : (s.faultedBy k info).input = s.input := rfl
@[simp] theorem State.faultedBy_output (k : ErrKind) (info : Word) : (s.faultedBy k info).output = s.output := rfl
@[simp] theorem State.faultedBy_reg (k : ErrKind) (info : Word) (q : Reg) : (s.faultedBy k info).reg q = s.reg q := rfl

end Sys2Proof.Machine
end

