-- ==== Sys2Proof/Laws/Exec.lean ====
section
/-! SUPPORT. What an instruction body can do, said once: it raises an error and writes nothing else, or it has its
own effect. -/

namespace Sys2Proof.Machine

/-! ### Errors and the `Except` of the bodies -/

@[simp] theorem ok_bind {α β : Type} (a : α) (f : α → Except Err β) : (Except.ok a >>= f) = f a := rfl

@[simp] theorem error_bind {α β : Type} (e : Err) (f : α → Except Err β) : (Except.error e >>= f) = .error e := rfl

@[simp] theorem except_pure {α : Type} (a : α) : (pure a : Except Err α) = .ok a := rfl

@[simp] theorem commit_ok (s t : State) : commit s (.ok t) = .next t := rfl

@[simp] theorem commit_error (s : State) (e : Err) : commit s (.error e) = .next (s.faultedBy e.kind e.info) := rfl

/-- A body always answers a next state. -/
theorem commit_total (s : State) (b : Except Err State) : ∃ t, commit s b = .next t := by
  cases b with
  | ok t => exact ⟨t, rfl⟩
  | error e => exact ⟨_, rfl⟩

theorem bind_eq_ok {α β : Type} {x : Except Err α} {f : α → Except Err β} {b : β} (h : (x >>= f) = .ok b) :
    ∃ a, x = .ok a ∧ f a = .ok b := by
  cases x with
  | ok a => exact ⟨a, rfl, h⟩
  | error e => cases h

theorem bind_eq_error {α β : Type} {x : Except Err α} {f : α → Except Err β} {e : Err} (h : (x >>= f) = .error e) :
    x = .error e ∨ ∃ a, x = .ok a ∧ f a = .error e := by
  cases x with
  | ok a => exact .inr ⟨a, rfl, h⟩
  | error e' => exact .inl (by cases h; rfl)

/-! ### Operand forms -/

@[simp] theorem dst_reg (r : Reg) : dst (.reg r) = .ok r := rfl

@[simp] theorem resolve_lit (s : State) (v : BitVec 15) : resolve s (.lit v) = .ok (v.setWidth 16) := rfl

@[simp] theorem resolve_reg (s : State) (r : Reg) : resolve s (.reg r) = .ok (s.reg r) := rfl

@[simp] theorem resolve_invalid (s : State) (w : Word) : resolve s (.invalid w) = .error ⟨.invalidOperand, w⟩ := rfl

theorem dst_of_not_reg {a : Operand} (h : ∀ r, a ≠ .reg r) :
    dst a = .error ⟨.invalidRegisterIndex, encodeOperand a⟩ := by
  cases a with
  | lit v => rfl
  | reg r => exact absurd rfl (h r)
  | invalid w => rfl

theorem dst_eq_ok {a : Operand} {r : Reg} (h : dst a = .ok r) : a = .reg r := by
  cases a with
  | lit v => cases h
  | reg q => cases h; rfl
  | invalid w => cases h

/-- The errors of the accesses have a kind. -/
theorem dst_error {a : Operand} {e : Err} (h : dst a = .error e) : e.kind ≠ .none := by
  cases a <;> cases h <;> simp

theorem resolve_error {s : State} {o : Operand} {e : Err} (h : resolve s o = .error e) : e.kind ≠ .none := by
  cases o <;> cases h; simp

theorem pop_error {s : State} {e : Err} (h : pop s = .error e) : e.kind ≠ .none := by
  unfold pop at h
  split at h <;> cases h; simp

theorem pop_eq_ok {s t : State} {v : Word} (h : pop s = .ok (v, t)) :
    ∃ rest, s.stack = v :: rest ∧ t = s.setStack rest := by
  unfold pop at h
  split at h
  · cases h
  · next w rest hs =>
    cases h
    exact ⟨rest, hs, rfl⟩

theorem memRead_error {s : State} {a : Word} {e : Err} (h : memRead s a = .error e) : e.kind ≠ .none := by
  unfold memRead at h
  split at h <;> cases h; simp

theorem memRead_eq_ok {s : State} {a v : Word} (h : memRead s a = .ok v) :
    a.toNat < Config.memWords ∧ v = s.mem.readWord a.toNat := by
  unfold memRead at h
  split at h
  · next ha => cases h; exact ⟨ha, rfl⟩
  · cases h

theorem memWrite_error {s : State} {a v : Word} {e : Err} (h : memWrite s a v = .error e) : e.kind ≠ .none := by
  unfold memWrite at h
  split at h <;> cases h; simp

theorem memWrite_eq_ok {s t : State} {a v : Word} (h : memWrite s a v = .ok t) :
    a.toNat < Config.memWords ∧ t = s.setMem (s.mem.writeWord a.toNat v) := by
  unfold memWrite at h
  split at h
  · next ha => cases h; exact ⟨ha, rfl⟩
  · cases h

/-! ### The bodies of the formats -/

/-- `t` is `s` after an error was raised: FAULTED with a kind, and nothing else written. -/
def Raised (s t : State) : Prop := ∃ k info, k ≠ ErrKind.none ∧ t = s.faultedBy k info

theorem raised_of_error (s : State) {e : Err} (h : e.kind ≠ .none) : Raised s (s.faultedBy e.kind e.info) :=
  ⟨e.kind, e.info, h, rfl⟩

/-- A committed body that answers `t` raised, or computed `t`. -/
theorem commit_next {s t : State} {b : Except Err State} (h : commit s b = .next t)
    (he : ∀ e, b = .error e → e.kind ≠ .none) : Raised s t ∨ b = .ok t := by
  cases b with
  | ok u => cases h; exact .inr rfl
  | error e => cases h; exact .inl (raised_of_error s (he e rfl))

theorem writeBinary_next {f : Word → Word → Except Err Word} {a b c : Operand} {s t : State}
    (hf : ∀ x y e, f x y = .error e → e.kind ≠ .none) (h : writeBinary f a b c s = .next t) :
    Raised s t ∨ ∃ r vb vc v, a = .reg r ∧ resolve s b = .ok vb ∧ resolve s c = .ok vc ∧ f vb vc = .ok v ∧
      t = (s.setReg r v).advance 4 := by
  refine Or.imp_right (fun hok => ?_) (commit_next h fun e he => ?_)
  · obtain ⟨r, hr, h1⟩ := bind_eq_ok hok
    obtain ⟨vb, hb, h2⟩ := bind_eq_ok h1
    obtain ⟨vc, hc, h3⟩ := bind_eq_ok h2
    obtain ⟨v, hv, h4⟩ := bind_eq_ok h3
    cases h4
    exact ⟨r, vb, vc, v, dst_eq_ok hr, hb, hc, hv, rfl⟩
  · rcases bind_eq_error he with h1 | ⟨r, _, h1⟩
    · exact dst_error h1
    rcases bind_eq_error h1 with h2 | ⟨vb, _, h2⟩
    · exact resolve_error h2
    rcases bind_eq_error h2 with h3 | ⟨vc, _, h3⟩
    · exact resolve_error h3
    rcases bind_eq_error h3 with h4 | ⟨v, _, h4⟩
    · exact hf _ _ _ h4
    · cases h4

theorem writeUnary_next {f : Word → Except Err Word} {a b : Operand} {s t : State}
    (hf : ∀ x e, f x = .error e → e.kind ≠ .none) (h : writeUnary f a b s = .next t) :
    Raised s t ∨ ∃ r vb v, a = .reg r ∧ resolve s b = .ok vb ∧ f vb = .ok v ∧ t = (s.setReg r v).advance 3 := by
  refine Or.imp_right (fun hok => ?_) (commit_next h fun e he => ?_)
  · obtain ⟨r, hr, h1⟩ := bind_eq_ok hok
    obtain ⟨vb, hb, h2⟩ := bind_eq_ok h1
    obtain ⟨v, hv, h3⟩ := bind_eq_ok h2
    cases h3
    exact ⟨r, vb, v, dst_eq_ok hr, hb, hv, rfl⟩
  · rcases bind_eq_error he with h1 | ⟨r, _, h1⟩
    · exact dst_error h1
    rcases bind_eq_error h1 with h2 | ⟨vb, _, h2⟩
    · exact resolve_error h2
    rcases bind_eq_error h2 with h3 | ⟨v, _, h3⟩
    · exact hf _ _ h3
    · cases h3

theorem branch_next {test : Word → Bool} {a b : Operand} {s t : State} (h : branch test a b s = .next t) :
    Raised s t ∨ ∃ v, resolve s a = .ok v ∧
      ((test v = true ∧ ∃ u, resolve s b = .ok u ∧ t = s.setPc u) ∨ (test v = false ∧ t = s.advance 3)) := by
  refine Or.imp_right (fun hok => ?_) (commit_next h fun e he => ?_)
  · obtain ⟨v, hv, h1⟩ := bind_eq_ok hok
    refine ⟨v, hv, ?_⟩
    cases ht : test v with
    | true =>
      simp only [ht, if_true] at h1
      obtain ⟨u, hu, h2⟩ := bind_eq_ok h1
      cases h2
      exact .inl ⟨rfl, u, hu, rfl⟩
    | false =>
      simp only [ht] at h1
      cases h1
      exact .inr ⟨rfl, rfl⟩
  · rcases bind_eq_error he with h1 | ⟨v, _, h1⟩
    · exact resolve_error h1
    cases ht : test v with
    | true =>
      simp only [ht, if_true] at h1
      rcases bind_eq_error h1 with h2 | ⟨u, _, h2⟩
      · exact resolve_error h2
      · cases h2
    | false =>
      simp only [ht] at h1
      cases h1

theorem modWord_error {x y : Word} {e : Err} (h : modWord x y = .error e) : e.kind ≠ .none := by
  unfold modWord at h
  split at h <;> cases h; simp

theorem modWord_eq_ok {x y v : Word} (h : modWord x y = .ok v) :
    y.toNat ≠ 0 ∧ v = BitVec.ofNat 16 (x.toNat % y.toNat) := by
  unfold modWord at h
  split at h
  · cases h
  · next hy => cases h; exact ⟨hy, rfl⟩

/-! ### Every instruction -/

/-- The value a three-operand or two-operand instruction writes, given its operands' values. -/
def Writes (s t : State) (a b : Operand) (len : Nat) (f : Word → Word → Prop) : Prop :=
  ∃ r vb v, a = .reg r ∧ resolve s b = .ok vb ∧ f vb v ∧ t = (s.setReg r v).advance len

/-- `Writes` with a second source operand. -/
def Writes2 (s t : State) (a b c : Operand) (f : Word → Word → Word → Prop) : Prop :=
  ∃ r vb vc v, a = .reg r ∧ resolve s b = .ok vb ∧ resolve s c = .ok vc ∧ f vb vc v ∧ t = (s.setReg r v).advance 4

/-- The effect of an instruction that raises nothing, from `s` to `t`. -/
def Effect (s t : State) : Instr → Prop
  | .halt => t = s.setStatus .halted
  | .set a b => Writes s t a b 3 fun vb v => v = vb
  | .push a => ∃ v, resolve s a = .ok v ∧ t = (s.push v).advance 2
  | .pop a => ∃ r v rest, a = .reg r ∧ s.stack = v :: rest ∧ t = ((s.setStack rest).setReg r v).advance 2
  | .eq a b c => Writes2 s t a b c fun vb vc v => v = eqWord vb vc
  | .gt a b c => Writes2 s t a b c fun vb vc v => v = gtWord vb vc
  | .jmp a => ∃ u, resolve s a = .ok u ∧ t = s.setPc u
  | .jt a b => ∃ v, resolve s a = .ok v ∧
      ((isNonzero v = true ∧ ∃ u, resolve s b = .ok u ∧ t = s.setPc u) ∨ (isNonzero v = false ∧ t = s.advance 3))
  | .jf a b => ∃ v, resolve s a = .ok v ∧
      ((isZero v = true ∧ ∃ u, resolve s b = .ok u ∧ t = s.setPc u) ∨ (isZero v = false ∧ t = s.advance 3))
  | .add a b c => Writes2 s t a b c fun vb vc v => v = addWord vb vc
  | .mult a b c => Writes2 s t a b c fun vb vc v => v = multWord vb vc
  | .mod a b c => Writes2 s t a b c fun vb vc v => vc.toNat ≠ 0 ∧ v = BitVec.ofNat 16 (vb.toNat % vc.toNat)
  | .and a b c => Writes2 s t a b c fun vb vc v => v = andWord vb vc
  | .or a b c => Writes2 s t a b c fun vb vc v => v = orWord vb vc
  | .not a b => Writes s t a b 3 fun vb v => v = notWord vb
  | .rmem a b => Writes s t a b 3 fun vb v => vb.toNat < Config.memWords ∧ v = s.mem.readWord vb.toNat
  | .wmem a b => ∃ addr v, resolve s a = .ok addr ∧ resolve s b = .ok v ∧ addr.toNat < Config.memWords ∧
      t = (s.setMem (s.mem.writeWord addr.toNat v)).advance 3
  | .call a => ∃ u, resolve s a = .ok u ∧ t = (s.push (s.pc + 2)).setPc u
  | .ret => ∃ u rest, s.stack = u :: rest ∧ t = (s.setStack rest).setPc u
  | .out a => ∃ v, resolve s a = .ok v ∧ t = (s.emit v).advance 2
  | .inp a => ∃ r, a = .reg r ∧ t = s.setStatus (.waitInput r)
  | .noop => t = s.advance 1

theorem writes_of_pure {f : Word → Word} {a b : Operand} {s t : State}
    (h : writeUnary (fun v => .ok (f v)) a b s = .next t) :
    Raised s t ∨ Writes s t a b 3 fun vb v => v = f vb := by
  rcases writeUnary_next (fun _ _ he => by cases he) h with hr | ⟨r, vb, v, h1, h2, h3, h4⟩
  · exact .inl hr
  · cases h3
    exact .inr ⟨r, vb, _, h1, h2, rfl, h4⟩

theorem writes2_of_pure {f : Word → Word → Word} {a b c : Operand} {s t : State}
    (h : writeBinary (fun v w => .ok (f v w)) a b c s = .next t) :
    Raised s t ∨ Writes2 s t a b c fun vb vc v => v = f vb vc := by
  rcases writeBinary_next (fun _ _ _ he => by cases he) h with hr | ⟨r, vb, vc, v, h1, h2, h3, h4, h5⟩
  · exact .inl hr
  · cases h4
    exact .inr ⟨r, vb, vc, _, h1, h2, h3, rfl, h5⟩

theorem execPush_next {a : Operand} {s t : State} (h : execPush a s = .next t) :
    Raised s t ∨ Effect s t (.push a) := by
  refine Or.imp_right (fun hok => ?_) (commit_next h fun e he => ?_)
  · obtain ⟨v, hv, h1⟩ := bind_eq_ok hok
    cases h1
    exact ⟨v, hv, rfl⟩
  · rcases bind_eq_error he with h1 | ⟨_, _, h1⟩
    · exact resolve_error h1
    · cases h1

theorem execPop_next {a : Operand} {s t : State} (h : execPop a s = .next t) :
    Raised s t ∨ Effect s t (.pop a) := by
  refine Or.imp_right (fun hok => ?_) (commit_next h fun e he => ?_)
  · obtain ⟨r, hr, h1⟩ := bind_eq_ok hok
    obtain ⟨⟨v, s1⟩, hp, h2⟩ := bind_eq_ok h1
    obtain ⟨rest, hs, rfl⟩ := pop_eq_ok hp
    cases h2
    exact ⟨r, v, rest, dst_eq_ok hr, hs, rfl⟩
  · rcases bind_eq_error he with h1 | ⟨_, _, h1⟩
    · exact dst_error h1
    rcases bind_eq_error h1 with h2 | ⟨_, _, h2⟩
    · exact pop_error h2
    · cases h2

theorem execJmp_next {a : Operand} {s t : State} (h : execJmp a s = .next t) :
    Raised s t ∨ Effect s t (.jmp a) := by
  refine Or.imp_right (fun hok => ?_) (commit_next h fun e he => ?_)
  · obtain ⟨v, hv, h1⟩ := bind_eq_ok hok
    cases h1
    exact ⟨v, hv, rfl⟩
  · rcases bind_eq_error he with h1 | ⟨_, _, h1⟩
    · exact resolve_error h1
    · cases h1

theorem execWmem_next {a b : Operand} {s t : State} (h : execWmem a b s = .next t) :
    Raised s t ∨ Effect s t (.wmem a b) := by
  refine Or.imp_right (fun hok => ?_) (commit_next h fun e he => ?_)
  · obtain ⟨addr, ha, h1⟩ := bind_eq_ok hok
    obtain ⟨v, hv, h2⟩ := bind_eq_ok h1
    obtain ⟨s1, hw, h3⟩ := bind_eq_ok h2
    obtain ⟨hlt, rfl⟩ := memWrite_eq_ok hw
    cases h3
    exact ⟨addr, v, ha, hv, hlt, rfl⟩
  · rcases bind_eq_error he with h1 | ⟨_, _, h1⟩
    · exact resolve_error h1
    rcases bind_eq_error h1 with h2 | ⟨_, _, h2⟩
    · exact resolve_error h2
    rcases bind_eq_error h2 with h3 | ⟨_, _, h3⟩
    · exact memWrite_error h3
    · cases h3

theorem execCall_next {a : Operand} {s t : State} (h : execCall a s = .next t) :
    Raised s t ∨ Effect s t (.call a) := by
  refine Or.imp_right (fun hok => ?_) (commit_next h fun e he => ?_)
  · obtain ⟨v, hv, h1⟩ := bind_eq_ok hok
    cases h1
    exact ⟨v, hv, rfl⟩
  · rcases bind_eq_error he with h1 | ⟨_, _, h1⟩
    · exact resolve_error h1
    · cases h1

theorem execRet_next {s t : State} (h : execRet s = .next t) : Raised s t ∨ Effect s t .ret := by
  refine Or.imp_right (fun hok => ?_) (commit_next h fun e he => ?_)
  · obtain ⟨⟨u, s1⟩, hp, h1⟩ := bind_eq_ok hok
    obtain ⟨rest, hs, rfl⟩ := pop_eq_ok hp
    cases h1
    exact ⟨u, rest, hs, rfl⟩
  · rcases bind_eq_error he with h1 | ⟨_, _, h1⟩
    · exact pop_error h1
    · cases h1

theorem execOut_next {a : Operand} {s t : State} (h : execOut a s = .next t) :
    Raised s t ∨ Effect s t (.out a) := by
  refine Or.imp_right (fun hok => ?_) (commit_next h fun e he => ?_)
  · obtain ⟨v, hv, h1⟩ := bind_eq_ok hok
    cases h1
    exact ⟨v, hv, rfl⟩
  · rcases bind_eq_error he with h1 | ⟨_, _, h1⟩
    · exact resolve_error h1
    · cases h1

theorem execIn_next {a : Operand} {s t : State} (h : execIn a s = .next t) :
    Raised s t ∨ Effect s t (.inp a) := by
  refine Or.imp_right (fun hok => ?_) (commit_next h fun e he => ?_)
  · obtain ⟨r, hr, h1⟩ := bind_eq_ok hok
    cases h1
    exact ⟨r, dst_eq_ok hr, rfl⟩
  · rcases bind_eq_error he with h1 | ⟨_, _, h1⟩
    · exact dst_error h1
    · cases h1

/-- A body that answers `t` raised, or had its effect. -/
theorem exec_next {i : Instr} {s t : State} (h : exec i s = .next t) : Raised s t ∨ Effect s t i := by
  cases i with
  | halt => cases h; exact .inr rfl
  | set a b => exact writes_of_pure (f := id) h
  | push a => exact execPush_next h
  | pop a => exact execPop_next h
  | eq a b c => exact writes2_of_pure h
  | gt a b c => exact writes2_of_pure h
  | jmp a => exact execJmp_next h
  | jt a b => exact branch_next h
  | jf a b => exact branch_next h
  | add a b c => exact writes2_of_pure h
  | mult a b c => exact writes2_of_pure h
  | mod a b c =>
    rcases writeBinary_next (fun _ _ _ => modWord_error) h with hr | ⟨r, vb, vc, v, h1, h2, h3, h4, h5⟩
    · exact .inl hr
    · exact .inr ⟨r, vb, vc, v, h1, h2, h3, modWord_eq_ok h4, h5⟩
  | and a b c => exact writes2_of_pure h
  | or a b c => exact writes2_of_pure h
  | not a b => exact writes_of_pure h
  | rmem a b =>
    rcases writeUnary_next (fun _ _ => memRead_error) h with hr | ⟨r, vb, v, h1, h2, h3, h4⟩
    · exact .inl hr
    · exact .inr ⟨r, vb, v, h1, h2, memRead_eq_ok h3, h4⟩
  | wmem a b => exact execWmem_next h
  | call a => exact execCall_next h
  | ret => exact execRet_next h
  | out a => exact execOut_next h
  | inp a => exact execIn_next h
  | noop => cases h; exact .inr rfl

/-- Every body answers a next state: none faults and none is refused. -/
theorem exec_total (i : Instr) (s : State) : ∃ t, exec i s = .next t := by
  cases i with
  | halt => exact ⟨_, rfl⟩
  | noop => exact ⟨_, rfl⟩
  | _ => exact commit_total s _

end Sys2Proof.Machine
end

