-- ==== Sys2Proof/Laws/PerInstr.lean ====
section
/-! SUPPORT. Facts about every instruction as syntax, one lemma per constructor. -/

/-- The words of an instruction are as many as its length says, at most four, and the first is its opcode, at most 21,
whose shape in the opcode map has the instruction's arity (R60, R67, R68). -/
def Sys2Proof.Laws.EncodedShape.Statement (i : Sys2Proof.Instr) : Prop :=
  (Sys2Proof.encodeWords i).length = i.length ∧ i.length ≤ 4 ∧ i.opcode ≤ 21 ∧
    (Sys2Proof.opcodeMap i.opcode).map Sys2Proof.Shape.arity = some i.operands.length

namespace Sys2Proof.Laws.EncodedShape

theorem halt : Statement .halt := ⟨rfl, by decide, by decide, rfl⟩
theorem set (a b : Operand) : Statement (.set a b) := ⟨rfl, by simp [Instr.length, Instr.operands], by simp [Instr.opcode], rfl⟩
theorem push (a : Operand) : Statement (.push a) := ⟨rfl, by simp [Instr.length, Instr.operands], by simp [Instr.opcode], rfl⟩
theorem pop (a : Operand) : Statement (.pop a) := ⟨rfl, by simp [Instr.length, Instr.operands], by simp [Instr.opcode], rfl⟩
theorem eq (a b c : Operand) : Statement (.eq a b c) := ⟨rfl, by simp [Instr.length, Instr.operands], by simp [Instr.opcode], rfl⟩
theorem gt (a b c : Operand) : Statement (.gt a b c) := ⟨rfl, by simp [Instr.length, Instr.operands], by simp [Instr.opcode], rfl⟩
theorem jmp (a : Operand) : Statement (.jmp a) := ⟨rfl, by simp [Instr.length, Instr.operands], by simp [Instr.opcode], rfl⟩
theorem jt (a b : Operand) : Statement (.jt a b) := ⟨rfl, by simp [Instr.length, Instr.operands], by simp [Instr.opcode], rfl⟩
theorem jf (a b : Operand) : Statement (.jf a b) := ⟨rfl, by simp [Instr.length, Instr.operands], by simp [Instr.opcode], rfl⟩
theorem add (a b c : Operand) : Statement (.add a b c) := ⟨rfl, by simp [Instr.length, Instr.operands], by simp [Instr.opcode], rfl⟩
theorem mult (a b c : Operand) : Statement (.mult a b c) := ⟨rfl, by simp [Instr.length, Instr.operands], by simp [Instr.opcode], rfl⟩
theorem mod (a b c : Operand) : Statement (.mod a b c) := ⟨rfl, by simp [Instr.length, Instr.operands], by simp [Instr.opcode], rfl⟩
theorem and (a b c : Operand) : Statement (.and a b c) := ⟨rfl, by simp [Instr.length, Instr.operands], by simp [Instr.opcode], rfl⟩
theorem or (a b c : Operand) : Statement (.or a b c) := ⟨rfl, by simp [Instr.length, Instr.operands], by simp [Instr.opcode], rfl⟩
theorem not (a b : Operand) : Statement (.not a b) := ⟨rfl, by simp [Instr.length, Instr.operands], by simp [Instr.opcode], rfl⟩
theorem rmem (a b : Operand) : Statement (.rmem a b) := ⟨rfl, by simp [Instr.length, Instr.operands], by simp [Instr.opcode], rfl⟩
theorem wmem (a b : Operand) : Statement (.wmem a b) := ⟨rfl, by simp [Instr.length, Instr.operands], by simp [Instr.opcode], rfl⟩
theorem call (a : Operand) : Statement (.call a) := ⟨rfl, by simp [Instr.length, Instr.operands], by simp [Instr.opcode], rfl⟩
theorem ret : Statement .ret := ⟨rfl, by decide, by decide, rfl⟩
theorem out (a : Operand) : Statement (.out a) := ⟨rfl, by simp [Instr.length, Instr.operands], by simp [Instr.opcode], rfl⟩
theorem inp (a : Operand) : Statement (.inp a) := ⟨rfl, by simp [Instr.length, Instr.operands], by simp [Instr.opcode], rfl⟩
theorem noop : Statement .noop := ⟨rfl, by decide, by decide, rfl⟩

end Sys2Proof.Laws.EncodedShape
end

