-- ==== Sys2Proof/Laws/Step.lean ====
section
/-! SUPPORT. The fetch window cell by cell, what one step can do, said once, and runs of instruction bodies. -/

namespace Sys2Proof.Machine

/-! ### The fetch window -/

/-- A cell that exists gives its word's two bytes. -/
theorem cellBytes_succ (m : Memory) {k n : Nat} (h : k < Config.memWords) :
    cellBytes m k (n + 1) = lowByte (m.readWord k) :: highByte (m.readWord k) :: cellBytes m (k + 1) n := by
  rw [cellBytes, if_pos h, Memory.readWord, lowByte_wordOfBytes, highByte_wordOfBytes]

/-- Above address 32767 there is nothing to fetch. -/
theorem cellBytes_above (m : Memory) {k n : Nat} (h : Config.memWords ≤ k) : cellBytes m k n = [] := by
  cases n with
  | zero => rfl
  | succ n => rw [cellBytes, if_neg (by omega)]

/-- Where `n` cells from `k` on exist, they are fetched whole. -/
theorem cellBytes_eq_words (m : Memory) {k n : Nat} (h : k + n ≤ Config.memWords) :
    cellBytes m k n = bytesOfWords ((List.range' k n).map m.readWord) := by
  induction n generalizing k with
  | zero => rfl
  | succ n ih =>
    rw [cellBytes_succ m (by omega), ih (by omega), List.range'_succ]
    rfl

/-- The opcode word is the cell at `pc` (R82). -/
theorem fetchWindow_eq {s : State} (h : s.pc.toNat < Config.memWords) :
    fetchWindow s = lowByte (s.mem.readWord s.pc.toNat) :: highByte (s.mem.readWord s.pc.toNat) ::
      cellBytes s.mem (s.pc.toNat + 1) 3 :=
  cellBytes_succ s.mem h

/-- `pc` below `IMAGE_LEN` addresses a cell that exists (R25). -/
theorem pc_lt_memWords {s : State} (h : s.pc.toNat < s.imageLen.val) : s.pc.toNat < Config.memWords := by
  have := s.imageLen.isLt
  unfold Config.memWords
  omega

/-- The decoder at `pc` selects by the cell at `pc`. -/
theorem decode_fetchWindow {s : State} (h : s.pc.toNat < Config.memWords) :
    decode (fetchWindow s) =
      match opcodeMap (s.mem.readWord s.pc.toNat).toNat with
      | none => .unknownOpcode (s.mem.readWord s.pc.toNat)
      | some shape => shape.read (cellBytes s.mem (s.pc.toNat + 1) 3) := by
  rw [fetchWindow_eq h]
  exact decode_word _ _

/-! ### The step -/

theorem step_running {s : State} (h : s.status = .running) : step s = stepRunning s := by
  simp [step, h]

theorem step_waitInput {s : State} {r : Reg} (h : s.status = .waitInput r) : step s = awaitInput s := by
  simp [step, h]

theorem stepRunning_ended {s : State} (h : s.imageLen.val ≤ s.pc.toNat) : stepRunning s = .next (s.setStatus .ended) := by
  simp [stepRunning, fetch, h]

theorem stepRunning_instr {s : State} {i : Instr} {rest : List Byte} (h : s.pc.toNat < s.imageLen.val)
    (hd : decode (fetchWindow s) = .instr i rest) : stepRunning s = exec i s := by
  simp [stepRunning, fetch, Nat.not_le.2 h, hd]

theorem stepRunning_unknown {s : State} {op : Word} (h : s.pc.toNat < s.imageLen.val)
    (hd : decode (fetchWindow s) = .unknownOpcode op) :
    stepRunning s = .next (s.faultedBy .unknownOpcode op) := by
  simp [stepRunning, fetch, Nat.not_le.2 h, hd, raise]

theorem stepRunning_missing {s : State} {k : Nat} (h : s.pc.toNat < s.imageLen.val)
    (hd : decode (fetchWindow s) = .missingWord k) :
    stepRunning s = .next (s.faultedBy .addressOutOfRange (BitVec.ofNat 16 (s.pc.toNat + k))) := by
  simp [stepRunning, fetch, Nat.not_le.2 h, hd, raise]

/-- The delivery that completes a pending `in` (R146). -/
theorem deliver_waitInput {s : State} {r : Reg} (c : Word) (h : s.status = .waitInput r) :
    deliver c s = ((s.setReg r c).advance 2).setStatus .running := by
  simp [deliver, h]

/-- What one step can do: end the run, raise, run one instruction, or deliver one input word. -/
theorem step_next {s t : State} (h : step s = .next t) :
    (s.status = .running ∧ s.imageLen.val ≤ s.pc.toNat ∧ t = s.setStatus .ended) ∨
    (s.status = .running ∧ s.pc.toNat < s.imageLen.val ∧ Raised s t) ∨
    (∃ i rest, s.status = .running ∧ s.pc.toNat < s.imageLen.val ∧ decode (fetchWindow s) = .instr i rest ∧
      exec i s = .next t ∧ Effect s t i) ∨
    (∃ r c rest, s.status = .waitInput r ∧ s.input = c :: rest ∧
      t = (((s.setInput rest).setReg r c).advance 2).setStatus .running) := by
  cases hs : s.status with
  | running =>
    rw [step_running hs] at h
    by_cases hp : s.imageLen.val ≤ s.pc.toNat
    · rw [stepRunning_ended hp] at h
      cases h
      exact .inl ⟨rfl, hp, rfl⟩
    · have hp' : s.pc.toNat < s.imageLen.val := by omega
      refine .inr ?_
      cases hd : decode (fetchWindow s) with
      | instr i rest =>
        rw [stepRunning_instr hp' hd] at h
        rcases exec_next h with hr | he
        · exact .inl ⟨rfl, hp', hr⟩
        · exact .inr (.inl ⟨i, rest, rfl, hp', rfl, h, he⟩)
      | unknownOpcode op =>
        rw [stepRunning_unknown hp' hd] at h
        cases h
        exact .inl ⟨rfl, hp', _, _, by simp, rfl⟩
      | missingWord k =>
        rw [stepRunning_missing hp' hd] at h
        cases h
        exact .inl ⟨rfl, hp', _, _, by simp, rfl⟩
  | waitInput r =>
    rw [step_waitInput hs] at h
    refine .inr (.inr (.inr ?_))
    cases hi : s.input with
    | nil => simp [awaitInput, hi] at h
    | cons c rest =>
      simp only [awaitInput, hi] at h
      rw [deliver_waitInput (r := r) c (by simpa using hs)] at h
      cases h
      exact ⟨r, c, rest, rfl, rfl, rfl⟩
  | halted => simp [step, hs] at h
  | ended => simp [step, hs] at h
  | faulted => simp [step, hs] at h

/-! ### Bodies one after another -/

@[simp] theorem execAll_nil (s : State) : execAll [] s = .next s := rfl

theorem execAll_cons {i : Instr} {s t : State} (is : List Instr) (h : exec i s = .next t) :
    execAll (i :: is) s = execAll is t := by
  simp [execAll, h]

/-- The second list goes on where the first ended. -/
theorem execAll_append {is : List Instr} {s t : State} (js : List Instr) (h : execAll is s = .next t) :
    execAll (is ++ js) s = execAll js t := by
  induction is generalizing s with
  | nil => cases h; rfl
  | cons i is ih =>
    cases he : exec i s with
    | next u =>
      rw [execAll_cons is he] at h
      rw [List.cons_append, execAll_cons _ he, ih h]
    | fault r => simp [execAll, he] at h
    | refused r => simp [execAll, he] at h

end Sys2Proof.Machine
end

