-- ==== Sys2Proof/Tests/Slice0.lean ====
section
/-! SUPPORT. Tests. Expected results come from spec/95_test_vectors.md (the vector's number stands beside each test) or
from the encodings of spec/30_encoding.md, written out by hand. At the end, one witness for each statement that has
hypotheses. -/

namespace Sys2Proof.Tests

open Sys2Proof.Machine Sys2Proof.Claims

/-! ### Well-formedness: what the check refuses -/

theorem test_wf_refuses_literal_word_as_invalid : (Operand.invalid 0).wf = false := by decide
theorem test_wf_refuses_register_word_as_invalid : (Operand.invalid 32775).wf = false := by decide
theorem test_wf_accepts_first_invalid_word : (Operand.invalid 32776).wf = true := by decide
theorem test_wf_checks_each_position :
    (Instr.add (.invalid 5) (.lit 0) (.lit 0)).wf = false ∧ (Instr.add (.reg 0) (.invalid 5) (.lit 0)).wf = false ∧
      (Instr.add (.reg 0) (.lit 0) (.invalid 5)).wf = false ∧ (Instr.push (.invalid 32775)).wf = false ∧
      (Instr.set (.lit 5) (.lit 7)).wf = true := by decide

/-! ### Decoding: one word sequence for each row of the opcode map (R67) -/

theorem test_decode_halt : decode (bytesOfWords [0x0000]) = .instr .halt [] := by decide
theorem test_decode_set : decode (bytesOfWords [0x0001, 0x8007, 0x7FFF]) = .instr (.set (.reg 7) (.lit 32767)) [] := by decide
theorem test_decode_push : decode (bytesOfWords [0x0002, 0x8002]) = .instr (.push (.reg 2)) [] := by decide
theorem test_decode_pop : decode (bytesOfWords [0x0003, 0x8000]) = .instr (.pop (.reg 0)) [] := by decide
theorem test_decode_eq : decode (bytesOfWords [0x0004, 0x8001, 0x8000, 0x7FFF]) = .instr (.eq (.reg 1) (.reg 0) (.lit 32767)) [] := by decide
theorem test_decode_gt : decode (bytesOfWords [0x0005, 0x8000, 6, 5]) = .instr (.gt (.reg 0) (.lit 6) (.lit 5)) [] := by decide
theorem test_decode_jmp : decode (bytesOfWords [0x0006, 100]) = .instr (.jmp (.lit 100)) [] := by decide
theorem test_decode_jt : decode (bytesOfWords [0x0007, 0x8000, 0x8001]) = .instr (.jt (.reg 0) (.reg 1)) [] := by decide
theorem test_decode_jf : decode (bytesOfWords [0x0008, 1, 40000]) = .instr (.jf (.lit 1) (.invalid 40000)) [] := by decide
theorem test_decode_add : decode (bytesOfWords [0x0009, 0x8000, 4, 2]) = .instr (.add (.reg 0) (.lit 4) (.lit 2)) [] := by decide
theorem test_decode_mult : decode (bytesOfWords [0x000A, 0x8000, 3, 4]) = .instr (.mult (.reg 0) (.lit 3) (.lit 4)) [] := by decide
theorem test_decode_mod : decode (bytesOfWords [0x000B, 0x8001, 5, 0x8000]) = .instr (.mod (.reg 1) (.lit 5) (.reg 0)) [] := by decide
theorem test_decode_and : decode (bytesOfWords [0x000C, 0x8003, 1, 2]) = .instr (.and (.reg 3) (.lit 1) (.lit 2)) [] := by decide
theorem test_decode_or : decode (bytesOfWords [0x000D, 0x8004, 1, 2]) = .instr (.or (.reg 4) (.lit 1) (.lit 2)) [] := by decide
theorem test_decode_not : decode (bytesOfWords [0x000E, 0, 0x8005]) = .instr (.not (.lit 0) (.reg 5)) [] := by decide
theorem test_decode_rmem : decode (bytesOfWords [0x000F, 0x8000, 0x7FFF]) = .instr (.rmem (.reg 0) (.lit 32767)) [] := by decide
theorem test_decode_wmem : decode (bytesOfWords [0x0010, 0x8000, 0xFFFF]) = .instr (.wmem (.reg 0) (.invalid 65535)) [] := by decide
theorem test_decode_call : decode (bytesOfWords [0x0011, 0x8000]) = .instr (.call (.reg 0)) [] := by decide
theorem test_decode_ret : decode (bytesOfWords [0x0012]) = .instr .ret [] := by decide
theorem test_decode_out : decode (bytesOfWords [0x0013, 97, 0]) = .instr (.out (.lit 97)) [0, 0] := by decide
theorem test_decode_in : decode (bytesOfWords [0x0014, 0x8006]) = .instr (.inp (.reg 6)) [] := by decide
theorem test_decode_noop : decode (bytesOfWords [0x0015]) = .instr .noop [] := by decide
/-- R62: the bytes of `add r0, 4, 2`. -/
theorem test_encode_bytes : encode (.add (.reg 0) (.lit 4) (.lit 2)) = [0x09, 0x00, 0x00, 0x80, 0x04, 0x00, 0x02, 0x00] := by decide
/-- V2, V3, V4. -/
theorem test_decode_unknown :
    decode (bytesOfWords [22]) = .unknownOpcode 22 ∧ decode (bytesOfWords [65535]) = .unknownOpcode 65535 ∧
      decode (bytesOfWords [265, 0, 0, 0]) = .unknownOpcode 265 := by decide
theorem test_decode_short : decode [] = .missingWord 0 ∧ decode (bytesOfWords [9, 32768]) = .missingWord 2 := by decide
/-- R68, the list as the spec prints it. -/
theorem test_arity : ((List.range 23).map fun n => (opcodeMap n).map Shape.arity) =
    ([0, 2, 1, 1, 3, 3, 1, 2, 2, 3, 3, 3, 3, 3, 2, 2, 2, 1, 0, 1, 1, 0].map some) ++ [none] := by decide
theorem test_table_word : decodeTableWord 64 0x0002000480000009 = some (.add (.reg 0) (.lit 4) (.lit 2)) ∧
    decodeTableWord 16 0x0009 = some (.add (.lit 0) (.lit 0) (.lit 0)) ∧ decodeTableWord 16 22 = none := by decide

/-! ### One step of each instruction -/

/-- The state a run of an image starts from. -/
def start (image : List Word) : State := (State.init image []).getD State.reset

/-- One step's next state, read through `f`. -/
def stepped {α : Type} (s : State) (f : State → α) : Option α :=
  match step s with
  | .next t => some (f t)
  | .fault _ => none
  | .refused _ => none

/-- What a fault leaves visible. -/
def faultFields (t : State) : Status × ErrKind × Word × Word := (t.status, t.errKind, t.errInfo, t.pc)

/-- V20. -/
theorem test_halt : stepped (start [0]) (fun t => (t.status, t.pc)) = some (.halted, 0) := by decide
/-- V22. -/
theorem test_noop : stepped (start [21]) (fun t => (t.status, t.pc)) = some (.running, 1) := by decide
/-- V34. -/
theorem test_set_wide : stepped ((start [1, 32768, 32768]).setReg 0 40000) (fun t => (t.reg 0, t.pc)) = some (40000, 3) := by decide
/-- V35. -/
theorem test_set_literal_destination : stepped (start [1, 5, 7]) faultFields = some (.faulted, .invalidRegisterIndex, 5, 0) := by decide
/-- V39. -/
theorem test_push : stepped (((start [2, 32770]).setReg 2 77).push 1) (fun t => (t.stack, t.pc)) = some ([77, 1], 2) := by decide
/-- V41. -/
theorem test_pop : stepped ((start [3, 32768]).setStack [10, 5]) (fun t => (t.reg 0, t.stack, t.pc)) = some (10, [5], 2) := by decide
/-- V43. -/
theorem test_pop_destination_first : stepped (start [3, 0]) faultFields = some (.faulted, .invalidRegisterIndex, 0, 0) := by decide
/-- V51. -/
theorem test_eq : stepped ((start [4, 32768, 5, 6]).setReg 0 9) (fun t => (t.reg 0, t.pc)) = some (0, 4) := by decide
/-- V53. -/
theorem test_eq_register : stepped ((start [4, 32769, 32768, 32767]).setReg 0 32767) (fun t => t.reg 1) = some 1 := by decide
/-- V59. -/
theorem test_gt_unsigned : stepped ((start [5, 32768, 0, 32767]).setReg 0 9) (fun t => (t.reg 0, t.pc)) = some (0, 4) := by decide
/-- V60. -/
theorem test_gt_wide : stepped ((start [5, 32769, 32768, 32767]).setReg 0 32768) (fun t => t.reg 1) = some 1 := by decide
/-- V74. -/
theorem test_jmp : stepped ((start [6, 32768]).setReg 0 50000) (fun t => t.pc) = some 50000 := by decide
/-- V78. -/
theorem test_jt : stepped ((start [7, 32768, 5]).setReg 0 32768) (fun t => t.pc) = some 5 := by decide
/-- V79. -/
theorem test_jt_untaken_invalid : stepped (start [7, 0, 40000]) (fun t => (t.status, t.pc)) = some (.running, 3) := by decide
/-- V84. -/
theorem test_jf : stepped (start [8, 32768, 9]) (fun t => t.pc) = some 9 := by decide
/-- V86. -/
theorem test_jf_taken_invalid : stepped (start [8, 0, 40000]) faultFields = some (.faulted, .invalidOperand, 40000, 0) := by decide
/-- V96. -/
theorem test_add_same : stepped ((start [9, 32768, 32768, 32768]).setReg 0 21) (fun t => (t.reg 0, t.pc)) = some (42, 4) := by decide
/-- V98. -/
theorem test_add_wide : stepped ((start [9, 32769, 32768, 32768]).setReg 0 65535) (fun t => t.reg 1) = some 32766 := by decide
/-- V101. -/
theorem test_mult : stepped (start [10, 32768, 1000, 1000]) (fun t => (t.reg 0, t.pc)) = some (16960, 4) := by decide
/-- V107. -/
theorem test_mult_wide : stepped ((start [10, 32769, 32768, 32768]).setReg 0 65535) (fun t => t.reg 1) = some 1 := by decide
/-- V123. -/
theorem test_mod_wide : stepped (((start [11, 32769, 32768, 32770]).setReg 0 40000).setReg 2 50000) (fun t => (t.reg 1, t.pc)) = some (40000, 4) := by decide
/-- V119. -/
theorem test_mod_operand_before_zero : stepped (start [11, 32768, 40000, 0]) faultFields = some (.faulted, .invalidOperand, 40000, 0) := by decide
/-- V135. -/
theorem test_and_wide : stepped ((start [12, 32769, 32768, 32768]).setReg 0 65535) (fun t => t.reg 1) = some 65535 := by decide
/-- V130. -/
theorem test_and : stepped (start [12, 32768, 32527, 4080]) (fun t => (t.reg 0, t.pc)) = some (3840, 4) := by decide
/-- V136. -/
theorem test_or : stepped (start [13, 32768, 28672, 15]) (fun t => (t.reg 0, t.pc)) = some (28687, 4) := by decide
/-- V140. -/
theorem test_or_wide : stepped ((start [13, 32769, 32768, 1]).setReg 0 32768) (fun t => t.reg 1) = some 32769 := by decide
/-- V143. -/
theorem test_not : stepped (start [14, 32768, 4660]) (fun t => (t.reg 0, t.pc)) = some (28107, 3) := by decide
/-- V147. -/
theorem test_not_wide : stepped ((start [14, 32769, 32768]).setReg 0 32768) (fun t => t.reg 1) = some 32767 := by decide
/-- V164. -/
theorem test_rmem : stepped ((start [15, 32768, 32768]).setReg 0 2) (fun t => (t.reg 0, t.pc)) = some (32768, 3) := by decide
/-- V165. -/
theorem test_rmem_out_of_range : stepped ((start [15, 32769, 32768]).setReg 0 32768) faultFields = some (.faulted, .addressOutOfRange, 32768, 0) := by decide
/-- V170. -/
theorem test_wmem_address_operand : stepped (start [16, 32768, 7]) (fun t => (t.mem.readWord 0, t.mem.readWord 1, t.reg 0, t.pc)) = some (7, 32768, 0, 3) := by decide
/-- V172. -/
theorem test_wmem_last_cell : stepped (start [16, 32767, 5]) (fun t => (t.mem.readWord 32767, t.mem.wf)) = some (5, true) := by decide
/-- V181. -/
theorem test_call : stepped (((start [17, 32768]).setReg 0 9).push 3) (fun t => (t.stack, t.pc)) = some ([2, 3], 9) := by decide
/-- V185. -/
theorem test_ret : stepped ((start [18]).setStack [2, 7]) (fun t => (t.stack, t.pc)) = some ([7], 2) := by decide
/-- V188. -/
theorem test_ret_empty : stepped (start [18]) faultFields = some (.faulted, .stackUnderflow, 0, 0) := by decide
/-- V193. -/
theorem test_out : stepped (start [19, 300]) (fun t => (t.output, t.pc)) = some ([300], 2) := by decide
/-- V195. -/
theorem test_out_invalid : stepped (start [19, 32776]) (fun t => (t.output, faultFields t)) = some ([], .faulted, .invalidOperand, 32776, 0) := by decide
/-- V197. -/
theorem test_in_suspends : stepped (start [20, 32768]) (fun t => (t.status, t.pc)) = some (.waitInput 0, 0) := by decide
/-- V199, the delivery. -/
theorem test_in_delivers : stepped { start [20, 32775] with status := .waitInput 7, input := [65535] }
    (fun t => (t.reg 7, t.pc, t.status, t.input)) = some (65535, 2, .running, []) := by decide

/-! ### Fetch, load, reset -/

/-- A full-size image with only the words at `k` listed, about to fetch there. -/
def atTop (k : Nat) (ws : List Word) : State :=
  { State.reset with mem := Memory.writeWords [] k ws, imageLen := 32768, pc := BitVec.ofNat 16 k }

/-- V1, V12's second step. -/
theorem test_end_test : stepped (start []) (fun t => t.status) = some .ended ∧
    stepped ((start [6, 100]).setPc 100) (fun t => (t.status, t.pc)) = some (.ended, 100) := by decide
/-- V7. -/
theorem test_operand_beyond_image : stepped (start [9, 32768, 4]) (fun t => (t.reg 0, t.pc)) = some (4, 4) := by decide
/-- V9. -/
theorem test_operand_above_memory : stepped (atTop 32765 [9, 32768, 1]) faultFields = some (.faulted, .addressOutOfRange, 32768, 32765) := by decide
/-- V10. -/
theorem test_call_at_top : stepped (atTop 32766 [17, 0]) (fun t => (t.stack, t.pc)) = some ([32768], 0) := by decide
/-- V11. -/
theorem test_no_wrap_at_top : stepped (atTop 32767 [21]) (fun t => t.pc) = some 32768 := by decide
/-- E1, the image's bytes. -/
theorem test_load_bytes : (State.load [0x13, 0x00, 0x61, 0x00, 0x00, 0x00] []).map (fun s => (s.imageLen, s.mem.readWord 0, s.mem.readWord 1)) = some (3, 19, 97) ∧
    State.load [0x13, 0x00, 0x61] [] = none := by decide
theorem test_readout : (State.reset.readout = none) ∧
    ((State.reset.setStatus .halted).readout.map fun r => (r.status, r.errKind, r.depth)) = some (2, 0, 0) := by decide
/-- The words placed by `withFetchWord` are what the next step runs. -/
theorem test_withFetchWord : stepped (State.reset.withFetchWord 64 0x0002000480000009) (fun t => (t.reg 0, t.pc)) = some (6, 4) := by decide
theorem test_withFetchWord_at_top : stepped ((atTop 32767 []).withFetchWord 64 0x0002000480000009) (fun t => (t.reg 0, t.pc)) = some (6, 4) := by decide

/-! ### Witnesses: the hypotheses of each statement can be met -/

/-- A literal and an invalid word are no register reference, at both ends of their ranges. -/
theorem test_witness_not_register : (∀ r, Operand.lit 0 ≠ .reg r) ∧ (∀ r, Operand.lit 32767 ≠ .reg r) ∧
    (∀ r, Operand.invalid 32776 ≠ .reg r) ∧ (∀ r, Operand.invalid 65535 ≠ .reg r) := by decide

/-- The clauses of `BinaryForm` and `BinaryWrites`: a bad destination, an invalid `b`, an invalid `c` after a value, two
values. -/
def BinaryWitness : Prop :=
  (∀ r, Operand.lit 32767 ≠ .reg r) ∧
  (∃ (r : Reg) (w : Word), Operand.reg 7 = .reg r ∧ Operand.invalid 32776 = .invalid w) ∧
  resolve State.reset (.reg 7) = .ok 0 ∧
  resolve (State.reset.setReg 0 65535) (.reg 0) = .ok 65535 ∧ resolve (State.reset.setReg 0 65535) (.lit 32767) = .ok 32767

theorem test_witness_binary : BinaryWitness := ⟨by decide, ⟨7, 32776, rfl, rfl⟩, rfl, rfl, rfl⟩

theorem test_witness_SetCopiesValue : BinaryWitness := test_witness_binary
theorem test_witness_PushPutsValueOnTop : BinaryWitness := test_witness_binary
theorem test_witness_PopTakesTop : (∀ r, Operand.lit 0 ≠ .reg r) ∧ State.reset.stack = [] ∧
    (State.reset.push 65535).stack = 65535 :: [] := by decide
theorem test_witness_EqWritesTruth : BinaryWitness := test_witness_binary
theorem test_witness_GtWritesTruth : BinaryWitness := test_witness_binary
theorem test_witness_JmpSetsCursor : BinaryWitness := test_witness_binary
/-- Both outcomes of the condition, with a valid and an invalid target. -/
theorem test_witness_JtJumpsWhenNonzero : resolve State.reset (.lit 1) = .ok 1 ∧ (1 : Word).toNat ≠ 0 ∧
    resolve State.reset (.lit 0) = .ok 0 ∧ ¬ (0 : Word).toNat ≠ 0 ∧ resolve State.reset (.lit 32767) = .ok 32767 :=
  ⟨rfl, by decide, rfl, by decide, rfl⟩
theorem test_witness_JfJumpsWhenZero : resolve State.reset (.lit 0) = .ok 0 ∧ (0 : Word).toNat = 0 ∧
    resolve State.reset (.lit 1) = .ok 1 ∧ ¬ (1 : Word).toNat = 0 ∧ resolve State.reset (.lit 32767) = .ok 32767 :=
  ⟨rfl, by decide, rfl, by decide, rfl⟩
theorem test_witness_AddModulo : BinaryWitness := test_witness_binary
theorem test_witness_MultModulo : BinaryWitness := test_witness_binary
/-- A zero divisor, and the divisor 1. -/
theorem test_witness_ModRemainder : resolve State.reset (.lit 7) = .ok 7 ∧ resolve State.reset (.reg 1) = .ok 0 ∧
    (0 : Word).toNat = 0 ∧ resolve State.reset (.lit 1) = .ok 1 ∧ (1 : Word).toNat ≠ 0 :=
  ⟨rfl, rfl, by decide, rfl, by decide⟩
theorem test_witness_AndBitwise : BinaryWitness := test_witness_binary
theorem test_witness_OrBitwise : BinaryWitness := test_witness_binary
theorem test_witness_NotComplements : resolve State.reset (.lit 32767) = .ok 32767 ∧ (32767 : Word).toNat ≤ 32767 :=
  ⟨rfl, by decide⟩
/-- The last cell, and the first address that does not exist. -/
theorem test_witness_RmemReadsCell : resolve State.reset (.lit 32767) = .ok 32767 ∧ (32767 : Word).toNat ≤ 32767 ∧
    resolve (State.reset.setReg 0 32768) (.reg 0) = .ok 32768 ∧ (32768 : Word).toNat > 32767 :=
  ⟨rfl, by decide, rfl, by decide⟩
theorem test_witness_WmemWritesCell : resolve State.reset (.lit 32767) = .ok 32767 ∧ (32767 : Word).toNat ≤ 32767 ∧
    State.reset.mem.wf = true ∧ resolve State.reset (.lit 5) = .ok 5 ∧
    resolve (State.reset.setReg 0 32768) (.reg 0) = .ok 32768 ∧ (32768 : Word).toNat > 32767 :=
  ⟨rfl, by decide, rfl, rfl, rfl, by decide⟩
/-- The highest `call` that executes. -/
theorem test_witness_CallPushesReturnAddress : Executes (atTop 32766 [17, 0]) (.call (.lit 0)) :=
  ⟨rfl, by decide, [], by decide⟩
theorem test_witness_RetPopsCursor : (State.reset.push 65535).stack = 65535 :: [] ∧ State.reset.stack = [] := by decide
theorem test_witness_OutEmitsWord : BinaryWitness := test_witness_binary
theorem test_witness_InSuspendsThenCompletes : (∀ r, Operand.lit 5 ≠ .reg r) ∧
    (State.reset.setInput [65535]).input = 65535 :: [] ∧ State.reset.input = [] := by decide
theorem test_witness_DecodeEncodeRoundTrip : (Instr.add (.invalid 32776) (.reg 7) (.lit 32767)).wf = true := by decide
theorem test_witness_DecodedBytesAreItsEncoding :
    decode [0x09, 0x00, 0x00, 0x80, 0x04, 0x00, 0x02, 0x00, 0x07] = .instr (.add (.reg 0) (.lit 4) (.lit 2)) [0x07] := by decide
/-- The ends of the three classes. -/
theorem test_witness_OperandClasses : (0 : Word).toNat ≤ 32767 ∧ (32767 : Word).toNat ≤ 32767 ∧
    32768 ≤ (32768 : Word).toNat ∧ (32775 : Word).toNat ≤ 32775 ∧ 32776 ≤ (32776 : Word).toNat ∧
    32776 ≤ (65535 : Word).toNat := by decide
theorem test_witness_ResolveRawWord : (32767 : Word).toNat ≤ 32767 ∧ (32768 : Word).toNat = 32768 + (0 : Reg).val ∧
    (32775 : Word).toNat = 32768 + (7 : Reg).val ∧ 32776 ≤ (32776 : Word).toNat := by decide
theorem test_witness_DestinationRawWord : (32768 : Word).toNat = 32768 + (0 : Reg).val ∧
    (32775 : Word).toNat = 32768 + (7 : Reg).val ∧ (32767 : Word).toNat ≤ 32767 ∧ 32776 ≤ (32776 : Word).toNat := by decide
theorem test_witness_MemoryReadAfterWrite : State.reset.mem.wf = true ∧ (start [9, 32768]).mem.wf = true ∧
    (32767 : Word).toNat ≤ 32767 ∧ (32768 : Word).toNat > 32767 := by decide
theorem test_witness_StepRunsDecodedInstruction : (atTop 32767 [21]).status = .running ∧
    (atTop 32767 [21]).pc.toNat < (atTop 32767 [21]).imageLen.val ∧
    decode (fetchWindow (atTop 32767 [21])) = .instr .noop [] := by decide
theorem test_witness_StepEndsAtImageEnd : (start []).status = .running ∧ (start []).imageLen.val ≤ (start []).pc.toNat := by decide
theorem test_witness_StepUnknownOpcode : (start [22]).status = .running ∧ (start [22]).pc.toNat < (start [22]).imageLen.val ∧
    ((start [22]).mem.readWord (start [22]).pc.toNat).toNat > 21 := by decide
/-- `out` in the last cell. -/
theorem test_witness_StepOperandFetchOutOfRange : (atTop 32767 [19]).status = .running ∧
    (atTop 32767 [19]).pc.toNat < (atTop 32767 [19]).imageLen.val ∧
    opcodeMap ((atTop 32767 [19]).mem.readWord (atTop 32767 [19]).pc.toNat).toNat = some (.f1 .out) ∧
    (atTop 32767 [19]).pc.toNat + (Shape.f1 .out).arity > 32767 :=
  ⟨rfl, by decide, rfl, by decide⟩
theorem test_witness_FetchReadsConsecutiveCells :
    opcodeMap ((atTop 32766 [17, 0]).mem.readWord (atTop 32766 [17, 0]).pc.toNat).toNat = some (.f1 .call) ∧
    (atTop 32766 [17, 0]).pc.toNat + (Shape.f1 .call).arity ≤ 32767 :=
  ⟨rfl, by decide⟩
theorem test_witness_RunningStepCompletes : State.reset.status = .running ∧
    (State.reset.setStatus (.waitInput 7)).status = .waitInput 7 ∧
    stepped ((State.reset.setStatus (.waitInput 7)).setInput [0]) (fun t => t.status) = some .running := by decide
theorem test_witness_FaultingStepWritesNothingElse :
    stepped (start [22]) (fun t => t.status) = some .faulted := by decide
theorem test_witness_TerminalStatusIsAbsorbing : (State.reset.setStatus .halted).status = .halted ∧
    (State.reset.setStatus .ended).status = .ended ∧ (State.reset.setStatus .faulted).status = .faulted ∧
    State.reset.status = .running ∧ (State.reset.setStatus (.waitInput 7)).status = .waitInput 7 := by decide
/-- A suspended `in` of a run meets the invariant, and its step has a next state. -/
def waiting : State := { start [20, 32768] with status := .waitInput 0, input := [120] }
theorem test_waiting_inv : waiting.Inv :=
  ⟨by decide, ⟨rfl, rfl, by decide, by decide, by decide, by decide⟩⟩
theorem test_witness_NextCursorTable : Executes (atTop 32766 [17, 0]) (.call (.lit 0)) ∧
    stepped (atTop 32766 [17, 0]) (fun t => t.pc) = some 0 ∧ waiting.Inv ∧ waiting.status = .waitInput 0 ∧
    stepped waiting (fun t => t.pc) = some 2 :=
  ⟨⟨rfl, by decide, [], by decide⟩, by decide, test_waiting_inv, rfl, by decide⟩
theorem test_witness_StepKeepsInvariant : waiting.Inv ∧ stepped waiting (fun t => t.status) = some .running :=
  ⟨test_waiting_inv, by decide⟩
theorem test_witness_InitLoadsImage : ([] : List Word).length ≤ 32768 ∧ (List.replicate 32768 (21 : Word)).length ≤ 32768 ∧
    32768 < (List.replicate 32769 (21 : Word)).length := by
  rw [List.length_replicate, List.length_replicate]
  decide
theorem test_witness_LoadLittleEndian : ([0x13, 0x00] : List Byte).length = 2 * 1 ∧ ([0x13] : List Byte).length % 2 = 1 ∧
    65536 < (List.replicate 65538 (0 : Byte)).length := by
  rw [List.length_replicate]
  decide
theorem test_witness_ExecIgnoresHostFields : exec .noop State.reset = .next { State.reset with pc := 1 } := rfl
theorem test_witness_OnlyWmemChangesMemory : (start [16, 32767, 5]).mem.wf = true ∧
    stepped (start [16, 32767, 5]) (fun t => t.mem.readWord 32767) = some 5 := by decide
theorem test_witness_OnlyOutEmits : stepped (start [19, 97]) (fun t => t.output) = some [97] := by decide
theorem test_witness_InputTakenOnlyWhenWaiting : stepped waiting (fun t => t.input) = some [] ∧ waiting.input ≠ [] ∧
    (∀ r, State.reset.status ≠ .waitInput r) := by decide
theorem test_witness_SuspensionKeepsState : stepped (start [20, 32775]) (fun t => t.status) = some (.waitInput 7) ∧
    waiting.status = .waitInput 0 ∧
    stepped waiting (fun t => (t.reg 0, t.pc, t.errKind, t.input)) = some (120, 2, .none, []) := by decide
theorem test_witness_ResultRanges : exec (.add (.reg 7) (.lit 32767) (.lit 1)) State.reset = .next { State.reset with pc := 4 } ∧
    exec (.eq (.reg 7) (.lit 0) (.lit 1)) State.reset = .next { State.reset with pc := 4 } ∧
    exec (.mod (.reg 7) (.lit 32767) (.lit 32767)) State.reset = .next { State.reset with pc := 4 } ∧
    resolve State.reset (.lit 32767) = .ok 32767 ∧ State.reset.status ≠ .faulted :=
  ⟨rfl, rfl, rfl, rfl, by decide⟩
theorem test_reset_valuesOnly : State.reset.valuesOnly :=
  ⟨by unfold Config.valueMax; decide, fun w h => absurd h List.not_mem_nil⟩
/-- A `call` at the highest allowed place, an `rmem` of the largest Value, and a host with the largest Value. -/
theorem test_witness_ValuesStayValues :
    State.reset.valuesOnly ∧ (State.reset.setInput [32767]).hostWithin 32767 ∧
    Executes (atTop 32765 [17, 0]) (.call (.lit 0)) ∧ (atTop 32765 [17, 0]).pc.toNat ≤ 32765 ∧
    Executes (start [15, 32768, 3, 32767]) (.rmem (.reg 0) (.lit 3)) ∧
    ((start [15, 32768, 3, 32767]).mem.readWord 3).toNat ≤ 32767 :=
  ⟨test_reset_valuesOnly, fun c h => by rw [List.mem_singleton.1 h]; decide, ⟨rfl, by decide, [0, 0], by decide⟩, by decide,
    ⟨rfl, by decide, [255, 127], by decide⟩, by decide⟩
theorem test_witness_AddSubtracts : resolve State.reset (.lit 32767) = .ok 32767 ∧ (32767 : Word).toNat ≤ 32767 ∧
    resolve State.reset (.lit 0) = .ok 0 ∧ 1 ≤ (1 : BitVec 15).toNat ∧ 1 ≤ (32767 : BitVec 15).toNat :=
  ⟨rfl, by decide, rfl, by decide, by decide⟩
/-- Nine pushes, more than there are registers, one of them of a register; a stack of two for two pops into one register;
as many pops as pushes, and fewer. -/
def ninePushes : List (Operand × Word) := (.reg 7, 0) :: List.replicate 8 (.lit 32767, 32767)
theorem test_witness_StackIsLifo : (∀ p ∈ ninePushes, resolve State.reset p.1 = .ok p.2) ∧
    (State.reset.setStack [9, 65535, 3]).stack = [((5 : Reg), (9 : Word)), (5, 65535)].map Prod.snd ++ [3] ∧
    (List.replicate 9 (5 : Reg)).length = ninePushes.length ∧ (List.replicate 8 (5 : Reg)).length < ninePushes.length ∧
    ([] : List Reg).length < ninePushes.length := by
  refine ⟨fun p hp => ?_, by decide⟩
  rcases List.mem_cons.1 hp with rfl | hp
  · rfl
  · rw [List.eq_of_mem_replicate hp]
    rfl
theorem test_witness_CallThenRetResumes : resolve State.reset (.lit 5) = .ok 5 ∧
    (State.reset.setStack [2]).stack = ((State.reset.push (State.reset.pc + 2)).setPc 5).stack := ⟨rfl, by decide⟩
/-- P3: `wmem 3, 21` writes the cell the next opcode is fetched from. -/
theorem test_witness_FetchSeesStore : (start [16, 3, 21, 0, 19, 66, 0]).mem.wf = true ∧
    Executes (start [16, 3, 21, 0, 19, 66, 0]) (.wmem (.lit 3) (.lit 21)) ∧
    stepped (start [16, 3, 21, 0, 19, 66, 0]) (fun t => (t.pc, decide (t.pc.toNat < t.imageLen.val))) = some (3, true) ∧
    resolve (start [16, 3, 21, 0, 19, 66, 0]) (.lit 3) = .ok 3 ∧ resolve (start [16, 3, 21, 0, 19, 66, 0]) (.lit 21) = .ok 21 :=
  ⟨by decide, ⟨rfl, by decide, [0, 0], by decide⟩, by decide, rfl, rfl⟩
theorem test_witness_RegisterWritersFrame :
    Instr.set (.reg 7) (.lit 0) ∈ writesRegister (.reg 7) (.lit 0) (.lit 0) ∧
    exec (.set (.reg 7) (.lit 0)) State.reset = .next { State.reset with pc := 3 } ∧ (∀ r, Operand.lit 5 ≠ .reg r) :=
  ⟨by decide, rfl, by decide⟩
theorem test_witness_StackInstructionsFrame :
    exec (.push (.lit 1)) State.reset = .next { State.reset with stack := [1], pc := 2 } ∧
    exec (.pop (.reg 0)) (State.reset.push 0) = .next { State.reset with pc := 2 } ∧ Operand.reg 0 ≠ .reg 7 :=
  ⟨rfl, rfl, by decide⟩
theorem test_witness_ControlAndPortFrame : exec (.jmp (.lit 3)) State.reset = .next { State.reset with pc := 3 } ∧
    exec .halt State.reset = .next { State.reset with status := .halted } ∧
    exec (.out (.lit 3)) State.reset = .next { State.reset with output := [3], pc := 2 } := ⟨rfl, rfl, rfl⟩
/-- A store to the last cell, and a form that stores nothing. -/
theorem test_witness_WmemFrame : State.reset.mem.wf = true ∧ resolve State.reset (.lit 32767) = .ok 32767 ∧
    exec (.wmem (.lit 32767) (.lit 5)) State.reset = .next { State.reset with mem := [(65534, 5)], pc := 3 } ∧
    exec (.wmem (.invalid 32776) (.lit 5)) State.reset = .next (State.reset.faultedBy .invalidOperand 32776) :=
  ⟨rfl, rfl, rfl, rfl⟩

end Sys2Proof.Tests
end

/-! PROOFS. The statements of spec/10_state.md: what instruction bodies do not see, suspension, and the stack. -/

namespace Sys2Proof.Machine

/-! ### Operand values -/

/-- An operand's value is read from the registers alone. -/
theorem resolve_congr {s t : State} (h : t.x = s.x) (a : Operand) : resolve t a = resolve s a := by
  cases a with
  | lit v => rfl
  | reg r => rw [resolve_reg, resolve_reg, State.reg, State.reg, h]
  | invalid w => rfl

/-! ### The host's fields are invisible to the bodies -/

/-- The state with other values in the two fields that belong to the host. -/
def State.withHost (n : Fin 32769) (ws : List Word) (s : State) : State := { s with imageLen := n, input := ws }

section HostFields
variable (n : Fin 32769) (ws : List Word)

@[simp] theorem State.withHost_imageLen (s : State) : (s.withHost n ws).imageLen = n := rfl
@[simp] theorem State.withHost_input (s : State) : (s.withHost n ws).input = ws := rfl

/-- Giving the two fields the values they have changes nothing. -/
theorem State.withHost_self (s : State) : s.withHost s.imageLen s.input = s := rfl

theorem resolve_withHost (s : State) (a : Operand) : resolve (s.withHost n ws) a = resolve s a := resolve_congr rfl a

theorem memRead_withHost (s : State) : memRead (s.withHost n ws) = memRead s := rfl

theorem memWrite_withHost (s : State) (a v : Word) :
    memWrite (s.withHost n ws) a v = State.withHost n ws <$> memWrite s a v := by
  unfold memWrite
  split <;> rfl

theorem pop_withHost (s : State) : pop (s.withHost n ws) = Prod.map id (State.withHost n ws) <$> pop s := by
  have hs : (s.withHost n ws).stack = s.stack := rfl
  unfold pop
  rw [hs]
  cases s.stack <;> rfl

variable {n ws}

/-- A computation that goes on alike after a value goes on alike as a whole. -/
theorem bind_withHost {α : Type} {x x' : Except Err α} {f f' : α → Except Err State} (hx : x' = x)
    (hf : ∀ v, f' v = State.withHost n ws <$> f v) : (x' >>= f') = State.withHost n ws <$> (x >>= f) := by
  rw [hx, map_bind]
  exact bind_congr hf

/-- A body that computes alike ends alike: an error, too, leaves the host's fields. -/
theorem commit_withHost {s t : State} {b b' : Except Err State} (h : commit s b = .next t)
    (hb : b' = State.withHost n ws <$> b) : commit (s.withHost n ws) b' = .next (t.withHost n ws) := by
  subst hb
  cases b with
  | ok u => cases h; rfl
  | error e => cases h; rfl

theorem writeBinary_withHost {f : Word → Word → Except Err Word} {a b c : Operand} {s t : State}
    (h : writeBinary f a b c s = .next t) :
    writeBinary f a b c (s.withHost n ws) = .next (t.withHost n ws) :=
  commit_withHost h <| bind_withHost rfl fun _ => bind_withHost (resolve_withHost n ws s b) fun _ =>
    bind_withHost (resolve_withHost n ws s c) fun _ => bind_withHost rfl fun _ => rfl

theorem writeUnary_withHost {f : Word → Except Err Word} {a b : Operand} {s t : State}
    (h : writeUnary f a b s = .next t) :
    writeUnary f a b (s.withHost n ws) = .next (t.withHost n ws) :=
  commit_withHost h <| bind_withHost rfl fun _ => bind_withHost (resolve_withHost n ws s b) fun _ =>
    bind_withHost rfl fun _ => rfl

theorem branch_withHost {test : Word → Bool} {a b : Operand} {s t : State} (h : branch test a b s = .next t) :
    branch test a b (s.withHost n ws) = .next (t.withHost n ws) := by
  refine commit_withHost h <| bind_withHost (resolve_withHost n ws s a) fun v => ?_
  cases test v with
  | true => exact bind_withHost (resolve_withHost n ws s b) fun _ => rfl
  | false => rfl

theorem execPop_withHost {a : Operand} {s t : State} (h : execPop a s = .next t) :
    execPop a (s.withHost n ws) = .next (t.withHost n ws) := by
  refine commit_withHost h <| bind_withHost rfl fun r => ?_
  rw [pop_withHost, bind_map_left]
  exact bind_withHost rfl fun _ => rfl

theorem execRet_withHost {s t : State} (h : execRet s = .next t) :
    execRet (s.withHost n ws) = .next (t.withHost n ws) := by
  refine commit_withHost h ?_
  rw [pop_withHost, bind_map_left]
  exact bind_withHost rfl fun _ => rfl

theorem execWmem_withHost {a b : Operand} {s t : State} (h : execWmem a b s = .next t) :
    execWmem a b (s.withHost n ws) = .next (t.withHost n ws) := by
  refine commit_withHost h <| bind_withHost (resolve_withHost n ws s a) fun addr =>
    bind_withHost (resolve_withHost n ws s b) fun v => ?_
  rw [memWrite_withHost, bind_map_left]
  exact bind_withHost rfl fun _ => rfl

/-- A body does the same to everything else, whatever the host's fields hold. -/
theorem exec_withHost {i : Instr} {s t : State} (h : exec i s = .next t) :
    exec i (s.withHost n ws) = .next (t.withHost n ws) := by
  have value (a : Operand) := resolve_withHost n ws s a
  cases i with
  | halt => cases h; rfl
  | set a b => exact writeUnary_withHost h
  | push a => exact commit_withHost h <| bind_withHost (value a) fun _ => rfl
  | pop a => exact execPop_withHost h
  | eq a b c => exact writeBinary_withHost h
  | gt a b c => exact writeBinary_withHost h
  | jmp a => exact commit_withHost h <| bind_withHost (value a) fun _ => rfl
  | jt a b => exact branch_withHost h
  | jf a b => exact branch_withHost h
  | add a b c => exact writeBinary_withHost h
  | mult a b c => exact writeBinary_withHost h
  | mod a b c => exact writeBinary_withHost h
  | and a b c => exact writeBinary_withHost h
  | or a b c => exact writeBinary_withHost h
  | not a b => exact writeUnary_withHost h
  | rmem a b => exact (congrArg (writeUnary · a b _) (memRead_withHost n ws s)).trans (writeUnary_withHost h)
  | wmem a b => exact execWmem_withHost h
  | call a => exact commit_withHost h <| bind_withHost (value a) fun _ => rfl
  | ret => exact execRet_withHost h
  | out a => exact commit_withHost h <| bind_withHost (value a) fun _ => rfl
  | inp a => exact commit_withHost h <| bind_withHost rfl fun _ => rfl
  | noop => cases h; rfl

end HostFields

/-- Run with the host's own fields in place, a body must answer a state that holds them: it keeps them. -/
theorem exec_keeps_host {i : Instr} {s t : State} (h : exec i s = .next t) :
    t.imageLen = s.imageLen ∧ t.input = s.input := by
  have hw := exec_withHost (n := s.imageLen) (ws := s.input) h
  rw [State.withHost_self, h, Host.Outcome.next.injEq] at hw
  rw [hw]
  simp

/-- Settles O44: the body commutes with giving the host's fields other values; with the fields' own values this says
that it keeps them. -/
theorem execIgnoresHostFields : Obligations.ExecIgnoresHostFields := by
  intro i s t n ws h
  obtain ⟨hlen, hinput⟩ := exec_keeps_host h
  exact ⟨hlen, hinput, exec_withHost h⟩

/-! ### Suspension and resumption -/

theorem Writes.status_eq {s t : State} {a b : Operand} {len : Nat} {f : Word → Word → Prop}
    (h : Writes s t a b len f) : t.status = s.status := by
  obtain ⟨r, vb, v, -, -, -, rfl⟩ := h
  rfl

theorem Writes2.status_eq {s t : State} {a b c : Operand} {f : Word → Word → Word → Prop}
    (h : Writes2 s t a b c f) : t.status = s.status := by
  obtain ⟨r, vb, vc, v, -, -, -, -, rfl⟩ := h
  rfl

/-- Only `halt` and `in` write `STATUS` when they complete (R100, R146). -/
theorem Effect.status_cases {i : Instr} {s t : State} (h : Effect s t i) :
    t.status = s.status ∨ (i = .halt ∧ t = s.setStatus .halted) ∨
      ∃ r, i = .inp (.reg r) ∧ t = s.setStatus (.waitInput r) := by
  cases i with
  | halt => exact .inr (.inl ⟨rfl, h⟩)
  | inp a =>
    obtain ⟨r, rfl, ht⟩ := h
    exact .inr (.inr ⟨r, rfl, ht⟩)
  | set | not | rmem => exact .inl (Writes.status_eq h)
  | eq | gt | add | mult | mod | and | or => exact .inl (Writes2.status_eq h)
  | push | jmp | call | out => obtain ⟨v, -, rfl⟩ := h; exact .inl rfl
  | pop => obtain ⟨r, v, rest, -, -, rfl⟩ := h; exact .inl rfl
  | jt | jf => obtain ⟨v, -, ⟨-, u, -, rfl⟩ | ⟨-, rfl⟩⟩ := h <;> exact .inl rfl
  | wmem => obtain ⟨addr, v, -, -, -, rfl⟩ := h; exact .inl rfl
  | ret => obtain ⟨u, rest, -, rfl⟩ := h; exact .inl rfl
  | noop => cases h; exact .inl rfl

/-- A completed body that turns RUNNING into WAIT_INPUT is an `in`, and changed only `STATUS`. -/
theorem Effect.eq_inp_of_waitInput {i : Instr} {s t : State} {r : Reg} (h : Effect s t i) (hs : s.status = .running)
    (ht : t.status = .waitInput r) : i = .inp (.reg r) ∧ t = s.setStatus (.waitInput r) := by
  rcases h.status_cases with hk | ⟨-, rfl⟩ | ⟨q, rfl, rfl⟩
  · simp [hk, hs] at ht
  · simp at ht
  · obtain rfl : q = r := by simpa using ht
    exact ⟨rfl, rfl⟩

/-- A step that suspends executes an `in` (R146). -/
theorem step_suspends {s t : State} {r : Reg} (h : step s = .next t) (ht : t.status = .waitInput r) :
    Claims.Executes s (.inp (.reg r)) ∧ t = s.setStatus (.waitInput r) := by
  rcases step_next h with ⟨-, -, rfl⟩ | ⟨-, -, k, info, -, rfl⟩ | ⟨i, rest, hs, hp, hd, -, he⟩ | ⟨q, c, rest, -, -, rfl⟩
  · simp at ht
  · simp at ht
  · obtain ⟨rfl, ht'⟩ := he.eq_inp_of_waitInput hs ht
    exact ⟨⟨hs, hp, rest, hd⟩, ht'⟩
  · simp at ht

/-- A step out of WAIT_INPUT delivers the host's first word (R93). -/
theorem step_delivers {s t : State} {r : Reg} (hs : s.status = .waitInput r) (h : step s = .next t) :
    ∃ c, s.input = c :: t.input ∧ t = (((s.setInput t.input).setReg r c).advance 2).setStatus .running := by
  rcases step_next h with ⟨hr, -⟩ | ⟨hr, -⟩ | ⟨i, rest, hr, -⟩ | ⟨q, c, rest, hq, hi, rfl⟩
  · simp [hs] at hr
  · simp [hs] at hr
  · simp [hs] at hr
  · obtain rfl : r = q := by simpa [hs] using hq
    exact ⟨c, hi, rfl⟩

/-- Settles O48: of all that a step can do, only an `in` leads into WAIT_INPUT and only a delivery leads out. -/
theorem suspensionKeepsState : Obligations.SuspensionKeepsState :=
  ⟨fun _ _ _ h ht => step_suspends h ht, fun _ _ _ hs h => step_delivers hs h⟩

/-! ### The stack -/

/-- `push` of an operand with a value (R106). -/
theorem exec_push {s : State} {a : Operand} {v : Word} (h : resolve s a = .ok v) :
    exec (.push a) s = .next ((s.push v).advance 2) := by
  simp [exec, execPush, h]

/-- `pop` from a stack that holds something (R107). -/
theorem exec_pop {s : State} {v : Word} {rest : List Word} (r : Reg) (h : s.stack = v :: rest) :
    exec (.pop (.reg r)) s = .next (((s.setStack rest).setReg r v).advance 2) := by
  simp [exec, execPop, pop, h]

/-- `call` of an operand with a value (R140). -/
theorem exec_call {s : State} {a : Operand} {t : Word} (h : resolve s a = .ok t) :
    exec (.call a) s = .next ((s.push (s.pc + 2)).setPc t) := by
  simp [exec, execCall, h]

/-- `ret` on a stack that holds something (R141). -/
theorem exec_ret {s : State} {t : Word} {rest : List Word} (h : s.stack = t :: rest) :
    exec .ret s = .next ((s.setStack rest).setPc t) := by
  simp [exec, execRet, retWith, Config.retEmpty, pop, h]

/-- Two advances are one by the sum of their lengths. -/
theorem pc_add_add (p : Word) (m n : Nat) :
    p + BitVec.ofNat 16 m + BitVec.ofNat 16 n = p + BitVec.ofNat 16 (m + n) := by
  rw [BitVec.add_assoc, BitVec.ofNat_add]

/-- Pushes leave their values on the stack, the last one on top. -/
theorem execAll_pushes (s : State) (ps : List (Operand × Word)) (hps : ∀ p ∈ ps, resolve s p.1 = .ok p.2) :
    execAll (ps.map fun p => .push p.1) s = .next { s with
      stack := (ps.map Prod.snd).reverse ++ s.stack, pc := s.pc + BitVec.ofNat 16 (2 * ps.length) } := by
  induction ps generalizing s with
  | nil => simp
  | cons p ps ih =>
    obtain ⟨hp, hrest⟩ := List.forall_mem_cons.1 hps
    have hkeep : ∀ q ∈ ps, resolve ((s.push p.2).advance 2) q.1 = .ok q.2 := fun q hq =>
      (resolve_congr rfl q.1).trans (hrest q hq)
    rw [List.map_cons, execAll_cons _ (exec_push hp), ih _ hkeep]
    simp [pc_add_add, Nat.mul_add, Nat.add_comm, State.push, State.advance]

/-- Pops take the entries from the top, in order. -/
theorem execAll_pops (s : State) (qs : List (Reg × Word)) (rest : List Word) (h : s.stack = qs.map Prod.snd ++ rest) :
    execAll (qs.map fun q => .pop (.reg q.1)) s = .next { s with
      x := qs.foldl (fun x q => x.set q.1 q.2) s.x, stack := rest,
      pc := s.pc + BitVec.ofNat 16 (2 * qs.length) } := by
  induction qs generalizing s with
  | nil =>
    obtain rfl : s.stack = rest := by simpa using h
    simp
  | cons q qs ih =>
    rw [List.map_cons, execAll_cons _ (exec_pop q.1 h), ih _ rfl]
    simp [pc_add_add, Nat.mul_add, Nat.add_comm, State.setStack, State.setReg, State.advance]

/-- `execAll_pops` with the registers and the entries as two lists of one length. -/
theorem execAll_pops_zip (s : State) {rs : List Reg} {vs : List Word} (rest : List Word)
    (hlen : rs.length = vs.length) (h : s.stack = vs ++ rest) :
    execAll (rs.map fun r => .pop (.reg r)) s = .next { s with
      x := (rs.zip vs).foldl (fun x q => x.set q.1 q.2) s.x, stack := rest,
      pc := s.pc + BitVec.ofNat 16 (2 * rs.length) } := by
  have hsnd : (rs.zip vs).map Prod.snd = vs := List.map_snd_zip hlen.ge
  have hpops : ((rs.zip vs).map fun q => Instr.pop (.reg q.1)) = rs.map fun r => .pop (.reg r) := by
    conv_rhs => rw [← List.map_fst_zip hlen.le, List.map_map]
    rfl
  rw [← hpops, execAll_pops s _ rest (by rw [hsnd, h]), List.length_zip, ← hlen, Nat.min_self]

/-- As many pops as pushes give the values back, the last one pushed first, and leave the stack as it was. -/
theorem execAll_pushes_pops (s : State) (ps : List (Operand × Word)) (rs : List Reg)
    (hps : ∀ p ∈ ps, resolve s p.1 = .ok p.2) (hlen : rs.length = ps.length) :
    execAll ((ps.map fun p => .push p.1) ++ rs.map fun r => .pop (.reg r)) s = .next { s with
      x := (rs.zip (ps.map Prod.snd).reverse).foldl (fun x q => x.set q.1 q.2) s.x,
      pc := s.pc + BitVec.ofNat 16 (4 * ps.length) } := by
  rw [execAll_append _ (execAll_pushes s ps hps), execAll_pops_zip _ s.stack (by simp [hlen]) rfl]
  simp [hlen, pc_add_add, ← Nat.add_mul]

/-- After fewer pops than pushes, one more pop returns the next value from the end. -/
theorem execAll_pushes_pops_last (s : State) (ps : List (Operand × Word)) (rs : List Reg) (r : Reg)
    (hps : ∀ p ∈ ps, resolve s p.1 = .ok p.2) (hlen : rs.length < ps.length) :
    ∃ t, execAll ((ps.map fun p => .push p.1) ++ (rs ++ [r]).map fun r => .pop (.reg r)) s = .next t ∧
      (ps.map Prod.snd).reverse[rs.length]? = some (t.reg r) := by
  rw [execAll_append _ (execAll_pushes s ps hps), List.map_append]
  generalize hvs : (ps.map Prod.snd).reverse = vs
  have hk : rs.length < vs.length := by simpa [← hvs] using hlen
  have hsplit : vs ++ s.stack = vs.take rs.length ++ (vs[rs.length] :: vs.drop (rs.length + 1) ++ s.stack) := by
    rw [← List.drop_eq_getElem_cons hk, ← List.append_assoc, List.take_append_drop]
  rw [execAll_append _ (execAll_pops_zip _ _ (by simp [hk.le]) hsplit), List.map_singleton,
    execAll_cons _ (exec_pop r rfl)]
  exact ⟨_, rfl, by simp [hk]⟩

/-- Settles O53: pushes stack their values up, pops take a stack down from the top, and a `ret` or a `call` works on
the same stack. -/
theorem stackIsLifo : Obligations.StackIsLifo := by
  refine ⟨execAll_pushes, execAll_pops, execAll_pushes_pops, execAll_pushes_pops_last, ?_, ?_⟩
  · intro s a v hv
    rw [execAll_cons _ (exec_push hv), execAll_cons _ (exec_ret rfl)]
    rfl
  · intro s a t r ht
    rw [execAll_cons _ (exec_call ht), execAll_cons _ (exec_pop r rfl)]
    rfl

end Sys2Proof.Machine

/-! PROOFS. The statements of spec/40_step_and_operands.md: which words name a destination, and where `pc` goes. -/

namespace Sys2Proof

/-- Exactly the words 32768..32775 are register references (R63). -/
theorem decodeOperand_eq_reg_iff {w : Word} {r : Reg} : decodeOperand w = .reg r ↔ w.toNat = 32768 + r.val := by
  rw [← toNat_encodeOperand_reg]
  constructor
  · intro h
    rw [← h, encodeOperand_decodeOperand]
  · intro h
    rw [BitVec.eq_of_toNat_eq h]
    exact decodeOperand_encodeOperand _ rfl

end Sys2Proof

namespace Sys2Proof.Machine

/-! ### Destinations -/

/-- Settles O28: a register reference is its own destination, and any other operand raises with its raw word. -/
theorem destinationRawWord : Obligations.DestinationRawWord := by
  intro w
  constructor
  · intro r hr
    rw [decodeOperand_eq_reg_iff.2 hr, dst_reg]
  · intro hw
    have hnot : ∀ r, decodeOperand w ≠ .reg r := fun r h => by
      have hword := decodeOperand_eq_reg_iff.1 h
      have hr := r.isLt
      omega
    rw [dst_of_not_reg hnot, encodeOperand_decodeOperand]

/-! ### The Cursor -/

/-- The test of `jf` compares the Word itself with 0 (R117). -/
theorem isZero_eq (v : Word) : isZero v = decide (v = 0) := by
  simp [isZero, BitVec.toNat_eq]

/-- The test of `jt` compares the Word itself with 0 (R116). -/
theorem isNonzero_eq (v : Word) : isNonzero v = decide (v ≠ 0) := by
  simp [isNonzero, BitVec.toNat_eq]

/-- From a cell of Memory, no advance by an instruction's length overflows (R89). -/
theorem State.advance_pc_toNat {s : State} {n : Nat} (hp : s.pc.toNat < Config.memWords) (hn : n ≤ 4) :
    (s.advance n).pc.toNat = s.pc.toNat + n := by
  unfold Config.memWords at hp
  rw [State.advance_pc, BitVec.toNat_add, BitVec.toNat_ofNat]
  omega

theorem Writes.pc_toNat {s t : State} {a b : Operand} {len : Nat} {f : Word → Word → Prop}
    (h : Writes s t a b len f) (hp : s.pc.toNat < Config.memWords) (hlen : len ≤ 4) :
    t.pc.toNat = s.pc.toNat + len := by
  obtain ⟨r, vb, v, -, -, -, rfl⟩ := h
  exact State.advance_pc_toNat hp hlen

theorem Writes2.pc_toNat {s t : State} {a b c : Operand} {f : Word → Word → Word → Prop}
    (h : Writes2 s t a b c f) (hp : s.pc.toNat < Config.memWords) : t.pc.toNat = s.pc.toNat + 4 := by
  obtain ⟨r, vb, vc, v, -, -, -, -, rfl⟩ := h
  exact State.advance_pc_toNat hp le_rfl

/-- An effect is not an error: it does not lead from RUNNING to FAULTED. -/
theorem Effect.status_ne_faulted {i : Instr} {s t : State} (h : Effect s t i) (hs : s.status = .running) :
    t.status ≠ .faulted := by
  rcases h.status_cases with hk | ⟨-, rfl⟩ | ⟨r, -, rfl⟩
  · simp [hk, hs]
  · simp
  · simp

/-- The step of a core that executes `i` raises, or has the effect of `i` (R84). -/
theorem step_of_executes {s t : State} {i : Instr} (hx : Claims.Executes s i) (h : step s = .next t) :
    Raised s t ∨ Effect s t i := by
  obtain ⟨hs, hp, rest, hd⟩ := hx
  rw [step_running hs, stepRunning_instr hp hd] at h
  exact exec_next h

/-- In WAIT_INPUT `pc` addresses a cell, that of the pending `in` (R35). -/
theorem State.Inv.pc_lt_of_waitInput {s : State} {r : Reg} (hi : s.Inv) (hs : s.status = .waitInput r) :
    s.pc.toNat < Config.memWords := by
  have hok := hi.status
  rw [State.statusOk, hs] at hok
  obtain ⟨-, -, hp, -⟩ := hok
  exact pc_lt_memWords hp

/-- Settles O38: `pc` of an executing step addresses a cell, so the advance of each effect is one of numbers; the
delivery's advance is that of the pending `in`. -/
theorem nextCursorTable : Obligations.NextCursorTable := by
  constructor
  · intro s t i hx h
    have ⟨hs, hlen, _⟩ := hx
    have hp : s.pc.toNat < Config.memWords := pc_lt_memWords hlen
    rcases step_of_executes hx h with ⟨k, info, -, rfl⟩ | he
    · simp
    rw [if_neg (he.status_ne_faulted hs)]
    cases i with
    | halt => cases he; rfl
    | inp => obtain ⟨r, -, rfl⟩ := he; rfl
    | jmp | call => obtain ⟨u, hu, rfl⟩ := he; exact hu
    | ret => obtain ⟨u, rest, hstack, rfl⟩ := he; simp [hstack]
    | jt =>
      obtain ⟨v, hv, hbranch⟩ := he
      refine ⟨v, hv, ?_⟩
      rcases hbranch with ⟨htest, u, hu, rfl⟩ | ⟨htest, rfl⟩
      · rw [if_neg (by simpa [isNonzero_eq] using htest)]
        exact hu
      · rw [if_pos (by simpa [isNonzero_eq] using htest)]
        exact State.advance_pc_toNat hp (by omega)
    | jf =>
      obtain ⟨v, hv, hbranch⟩ := he
      refine ⟨v, hv, ?_⟩
      rcases hbranch with ⟨htest, u, hu, rfl⟩ | ⟨htest, rfl⟩
      · rw [if_pos (by simpa [isZero_eq] using htest)]
        exact hu
      · rw [if_neg (by simpa [isZero_eq] using htest)]
        exact State.advance_pc_toNat hp (by omega)
    | set | not | rmem => exact Writes.pc_toNat he hp (by omega)
    | wmem => obtain ⟨addr, v, -, -, -, rfl⟩ := he; exact State.advance_pc_toNat hp (by omega)
    | push | out => obtain ⟨v, -, rfl⟩ := he; exact State.advance_pc_toNat hp (by omega)
    | pop => obtain ⟨r, v, rest, -, -, rfl⟩ := he; exact State.advance_pc_toNat hp (by omega)
    | noop => cases he; exact State.advance_pc_toNat hp (by omega)
    | eq | gt | add | mult | mod | and | or => exact Writes2.pc_toNat he hp
  · intro s t r hi hs h
    obtain ⟨c, -, ht⟩ := step_delivers hs h
    rw [ht]
    exact State.advance_pc_toNat (hi.pc_lt_of_waitInput hs) (by omega)

end Sys2Proof.Machine

/-! PROOFS. The statement of spec/41_system.md about `noop`. -/

namespace Sys2Proof.Machine

/-- `noop` commits the advance over its own word, whatever the state (R101). -/
theorem exec_noop (s : State) : exec .noop s = .next (s.advance 1) := commit_ok s (s.advance 1)

/-- Settles O2: the encoding is the opcode 21 with no operand words, and the committed state is `s.advance 1`, which
writes `pc` only. -/
theorem noopOnlyAdvances : Obligations.NoopOnlyAdvances := by
  constructor
  · rfl
  · exact exec_noop

end Sys2Proof.Machine

/-! PROOFS. The statements of spec/42_move_stack.md: `set`, `push`, `pop`, and before them the rules of the shared
formats with one destination and one value, or with one value. -/

namespace Sys2Proof.Machine

/-! ### A destination and a value -/

/-- The destination is examined first: where it names no register, `b` does not matter (R86, R87). -/
theorem writeUnary_of_not_reg (f : Word → Except Err Word) {a : Operand} (b : Operand) (s : State)
    (ha : ∀ r, a ≠ .reg r) :
    writeUnary f a b s = .next (s.faultedBy .invalidRegisterIndex (encodeOperand a)) := by
  rw [writeUnary, dst_of_not_reg ha]
  rfl

/-- After a register destination, an invalid value operand raises (R85, R87). -/
theorem writeUnary_invalid (f : Word → Except Err Word) (r : Reg) (w : Word) (s : State) :
    writeUnary f (.reg r) (.invalid w) s = .next (s.faultedBy .invalidOperand w) := rfl

/-- With a register destination and a value that `f` accepts, the result is written and three words are passed. -/
theorem writeUnary_of_ok {f : Word → Except Err Word} {s : State} {b : Operand} {vb v : Word} (r : Reg)
    (hb : resolve s b = .ok vb) (hf : f vb = .ok v) :
    writeUnary f (.reg r) b s = .next ((s.setReg r v).advance 3) := by
  simp [writeUnary, hb, hf]

/-- An instruction whose body is `writeUnary` has the operand errors of its format. -/
theorem unaryForm_of_writeUnary {n : Nat} {mk : Operand → Operand → Instr} (f : State → Word → Except Err Word)
    (hwords : ∀ a b, encodeWords (mk a b) = [BitVec.ofNat 16 n, encodeOperand a, encodeOperand b])
    (hbody : ∀ a b s, exec (mk a b) s = writeUnary (f s) a b s) : Claims.UnaryForm n mk := by
  intro s a b
  rw [hbody]
  refine ⟨hwords a b, writeUnary_of_not_reg (f s) b s, ?_⟩
  rintro r w rfl rfl
  exact writeUnary_invalid (f s) r w s

/-! ### A value -/

/-- An instruction whose body begins by resolving its one operand raises when that operand is invalid (R85). -/
theorem valueForm_of_resolve {n : Nat} {mk : Operand → Instr} (k : State → Word → Except Err State)
    (hwords : ∀ a, encodeWords (mk a) = [BitVec.ofNat 16 n, encodeOperand a])
    (hbody : ∀ a s, exec (mk a) s = commit s (resolve s a >>= k s)) : Claims.ValueForm n mk := by
  intro s a
  refine ⟨hwords a, ?_⟩
  rintro w rfl
  rw [hbody, resolve_invalid, error_bind, commit_error]

/-! ### `set`, `push`, `pop` -/

/-- `set` of an operand with a value (R105). -/
theorem exec_set {s : State} {b : Operand} {v : Word} (r : Reg) (h : resolve s b = .ok v) :
    exec (.set (.reg r) b) s = .next ((s.setReg r v).advance 3) :=
  writeUnary_of_ok r h rfl

/-- A `pop` whose destination names no register does not look at the stack (R107). -/
theorem exec_pop_of_not_reg {a : Operand} (s : State) (ha : ∀ r, a ≠ .reg r) :
    exec (.pop a) s = .next (s.faultedBy .invalidRegisterIndex (encodeOperand a)) := by
  rw [exec, execPop, dst_of_not_reg ha, error_bind, commit_error]

/-- `pop` from the empty stack (R107). -/
theorem exec_pop_of_empty {s : State} (r : Reg) (h : s.stack = []) :
    exec (.pop (.reg r)) s = .next (s.faultedBy .stackUnderflow 0) := by
  simp [exec, execPop, pop, h]

/-- Settles O3: `set` is `writeUnary` with nothing done to the value, so its operand errors are the format's. -/
theorem setCopiesValue : Obligations.SetCopiesValue := by
  constructor
  · exact unaryForm_of_writeUnary (fun _ => .ok) (fun _ _ => rfl) (fun _ _ _ => rfl)
  · intro s r b v hv
    exact exec_set r hv

/-- Settles O4: `push` resolves its operand before anything else, and commits the push followed by the advance. -/
theorem pushPutsValueOnTop : Obligations.PushPutsValueOnTop := by
  constructor
  · exact valueForm_of_resolve (fun s v => .ok ((s.push v).advance 2)) (fun _ => rfl) (fun _ _ => rfl)
  · intro s a v hv
    exact exec_push hv

/-- Settles O5: the destination decides first, then whether the stack holds anything. -/
theorem popTakesTop : Obligations.PopTakesTop := by
  intro s a
  refine ⟨rfl, exec_pop_of_not_reg s, ?_, ?_⟩
  · rintro r rfl hempty
    exact exec_pop_of_empty r hempty
  · rintro r v rest rfl htop
    exact exec_pop r htop

end Sys2Proof.Machine

/-! PROOFS. The statements of spec/43_compare.md: `eq` and `gt`, and before them the rules of the shared format with
one destination and two values. -/

namespace Sys2Proof.Machine

/-! ### A destination and two values -/

/-- The destination is examined first: where it names no register, `b` and `c` do not matter (R86, R87). -/
theorem writeBinary_of_not_reg (f : Word → Word → Except Err Word) {a : Operand} (b c : Operand) (s : State)
    (ha : ∀ r, a ≠ .reg r) :
    writeBinary f a b c s = .next (s.faultedBy .invalidRegisterIndex (encodeOperand a)) := by
  rw [writeBinary, dst_of_not_reg ha, error_bind, commit_error]

/-- After a register destination, an invalid first value operand raises, whatever `c` is (R85, R87). -/
theorem writeBinary_invalid_left (f : Word → Word → Except Err Word) (r : Reg) (w : Word) (c : Operand) (s : State) :
    writeBinary f (.reg r) (.invalid w) c s = .next (s.faultedBy .invalidOperand w) := by
  rw [writeBinary, dst_reg, ok_bind, resolve_invalid, error_bind, commit_error]

/-- After a register destination and a first value, an invalid second value operand raises (R85, R87). -/
theorem writeBinary_invalid_right (f : Word → Word → Except Err Word) {s : State} {b : Operand} {vb : Word} (r : Reg)
    (w : Word) (hb : resolve s b = .ok vb) :
    writeBinary f (.reg r) b (.invalid w) s = .next (s.faultedBy .invalidOperand w) := by
  rw [writeBinary, dst_reg, ok_bind, hb, ok_bind, resolve_invalid, error_bind, commit_error]

/-- With a register destination and two values that `f` accepts, the result is written and four words are passed. -/
theorem writeBinary_of_ok {f : Word → Word → Except Err Word} {s : State} {b c : Operand} {vb vc v : Word} (r : Reg)
    (hb : resolve s b = .ok vb) (hc : resolve s c = .ok vc) (hf : f vb vc = .ok v) :
    writeBinary f (.reg r) b c s = .next ((s.setReg r v).advance 4) := by
  simp [writeBinary, hb, hc, hf]

/-- An instruction whose body is `writeBinary` has the operand errors of its format. -/
theorem binaryForm_of_writeBinary {n : Nat} {mk : Operand → Operand → Operand → Instr}
    (f : Word → Word → Except Err Word)
    (hwords : ∀ a b c,
      encodeWords (mk a b c) = [BitVec.ofNat 16 n, encodeOperand a, encodeOperand b, encodeOperand c])
    (hbody : ∀ a b c s, exec (mk a b c) s = writeBinary f a b c s) : Claims.BinaryForm n mk := by
  intro s a b c
  rw [hbody]
  refine ⟨hwords a b c, writeBinary_of_not_reg f b c s, ?_, ?_⟩
  · rintro r w rfl rfl
    exact writeBinary_invalid_left f r w c s
  · rintro r vb w rfl hb rfl
    exact writeBinary_invalid_right f r w hb

/-- An instruction whose body is `writeBinary` of a word function that `g` describes on numbers writes `g`'s word. -/
theorem binaryWrites_of_writeBinary {mk : Operand → Operand → Operand → Instr} {f : Word → Word → Word}
    {g : Nat → Nat → Nat} (hbody : ∀ a b c s, exec (mk a b c) s = writeBinary (fun vb vc => .ok (f vb vc)) a b c s)
    (hf : ∀ vb vc, f vb vc = BitVec.ofNat 16 (g vb.toNat vc.toNat)) : Claims.BinaryWrites mk g := by
  intro s r b c vb vc hb hc
  rw [hbody, writeBinary_of_ok r hb hc rfl, hf]
  rfl

/-! ### `eq`, `gt` -/

/-- The word of a truth value is the word of its number. -/
theorem truthWord_decide (p : Prop) [Decidable p] : truthWord (decide p) = BitVec.ofNat 16 (if p then 1 else 0) := by
  by_cases hp : p
  · rw [decide_eq_true hp, if_pos hp]; rfl
  · rw [decide_eq_false hp, if_neg hp]; rfl

/-- Settles O6: `eq` has the operand errors of its format, and writes the truth value of the equality of the numbers. -/
theorem eqWritesTruth : Obligations.EqWritesTruth := by
  constructor
  · exact binaryForm_of_writeBinary (fun vb vc => .ok (eqWord vb vc)) (fun _ _ _ => rfl) (fun _ _ _ _ => rfl)
  · exact binaryWrites_of_writeBinary (fun _ _ _ _ => rfl) fun vb vc => truthWord_decide (vb.toNat = vc.toNat)

/-- Settles O7: `gt` has the operand errors of its format, and writes the truth value of the strict unsigned order. -/
theorem gtWritesTruth : Obligations.GtWritesTruth := by
  constructor
  · exact binaryForm_of_writeBinary (fun vb vc => .ok (gtWord vb vc)) (fun _ _ _ => rfl) (fun _ _ _ _ => rfl)
  · exact binaryWrites_of_writeBinary (fun _ _ _ _ => rfl) fun vb vc => truthWord_decide (vb.toNat > vc.toNat)

end Sys2Proof.Machine

/-! PROOFS. The statement of spec/44_jump.md about `jmp`. -/

namespace Sys2Proof.Machine

/-- `jmp` to an operand with a value writes that word to `pc` as it is (R115). -/
theorem exec_jmp {s : State} {a : Operand} {t : Word} (h : resolve s a = .ok t) :
    exec (.jmp a) s = .next (s.setPc t) := by
  rw [exec, execJmp, h, ok_bind]
  exact commit_ok s (s.setPc t)

/-- Settles O8: `jmp` resolves its operand before anything else, and commits the target written to `pc`. -/
theorem jmpSetsCursor : Obligations.JmpSetsCursor := by
  constructor
  · exact valueForm_of_resolve (fun s t => .ok (s.setPc t)) (fun _ => rfl) (fun _ _ => rfl)
  · intro s a t ht
    exact exec_jmp ht

end Sys2Proof.Machine

/-! PROOFS. The statements of spec/45_alu.md: `add`, `mult`, `mod`, `not` and the ranges of the results, and before
them what the words of Machine/Alu.lean are as numbers. -/

namespace Sys2Proof.Machine

/-! ### The result words as numbers and as bits -/

/-- The sum modulo 32768 fits its word, so narrowing loses nothing (R120). -/
theorem toNat_addWord (vb vc : Word) : (addWord vb vc).toNat = (vb.toNat + vc.toNat) % 32768 := by
  rw [addWord, Config.modulus, BitVec.toNat_ofNat]
  omega

/-- The product modulo 32768 fits its word (R121). -/
theorem toNat_multWord (vb vc : Word) : (multWord vb vc).toNat = vb.toNat * vc.toNat % 32768 := by
  rw [multWord, Config.modulus, BitVec.toNat_ofNat]
  omega

/-- A remainder of a Word fits a Word (R122). -/
theorem toNat_ofNat_mod (vb vc : Word) : (BitVec.ofNat 16 (vb.toNat % vc.toNat)).toNat = vb.toNat % vc.toNat :=
  Nat.mod_eq_of_lt ((Nat.mod_le _ _).trans_lt vb.isLt)

/-- `not` inverts all 16 bits and masks the result with 32767 (R125). -/
theorem notWord_eq (vb : Word) : notWord vb = ~~~vb &&& BitVec.ofNat 16 (2 ^ 15 - 1) := by
  rw [← BitVec.xor_allOnes]
  rfl

/-- The complement under the mask, bit by bit (R125). -/
theorem getLsbD_notWord (vb : Word) (k : Nat) : (notWord vb).getLsbD k = (decide (k < 15) && !vb.getLsbD k) := by
  rw [notWord_eq, BitVec.getLsbD_and, BitVec.getLsbD_not, BitVec.getLsbD_ofNat, Nat.testBit_two_pow_sub_one]
  by_cases hk : k < 15
  · have hk16 : k < 16 := by omega
    simp [hk, hk16]
  · simp [hk]

/-- Inverting gives 65535 minus the number, and the mask keeps its remainder by 32768 (R125). -/
theorem toNat_notWord (vb : Word) : (notWord vb).toNat = 32767 - vb.toNat % 32768 := by
  have hmask : (notWord vb).toNat = (65535 - vb.toNat) % 32768 := by
    rw [notWord_eq, BitVec.toNat_and, BitVec.toNat_not]
    exact Nat.and_two_pow_sub_one_eq_mod _ 15
  have hlt : vb.toNat < 65536 := vb.isLt
  omega

/-- `notWord` is an involution on 15-bit values (R125). -/
theorem notWord_notWord {vb : Word} (h : vb.toNat ≤ 32767) : notWord (notWord vb) = vb := by
  apply BitVec.eq_of_toNat_eq
  rw [toNat_notWord, toNat_notWord]
  omega

/-! ### `add`, `mult` -/

/-- Settles O11: `add` has the operand errors of its format, and `addWord` is by definition the word of the sum modulo
32768. -/
theorem addModulo : Obligations.AddModulo := by
  constructor
  · exact binaryForm_of_writeBinary (fun vb vc => .ok (addWord vb vc)) (fun _ _ _ => rfl) (fun _ _ _ _ => rfl)
  · exact binaryWrites_of_writeBinary (f := addWord) (fun _ _ _ _ => rfl) fun _ _ => rfl

/-- Settles O12: `mult` has the operand errors of its format, and `multWord` is by definition the word of the product
modulo 32768. -/
theorem multModulo : Obligations.MultModulo := by
  constructor
  · exact binaryForm_of_writeBinary (fun vb vc => .ok (multWord vb vc)) (fun _ _ _ => rfl) (fun _ _ _ _ => rfl)
  · exact binaryWrites_of_writeBinary (f := multWord) (fun _ _ _ _ => rfl) fun _ _ => rfl

/-! ### `mod` -/

/-- With a register destination and two values that `f` refuses, `f`'s error is raised. -/
theorem writeBinary_of_error {f : Word → Word → Except Err Word} {s : State} {b c : Operand} {vb vc : Word} {e : Err}
    (r : Reg) (hb : resolve s b = .ok vb) (hc : resolve s c = .ok vc) (hf : f vb vc = .error e) :
    writeBinary f (.reg r) b c s = .next (s.faultedBy e.kind e.info) := by
  rw [writeBinary, dst_reg, ok_bind, hb, ok_bind, hc, ok_bind, hf, error_bind, commit_error]

/-- `mod` by zero (R122). -/
theorem exec_mod_of_zero {s : State} {b c : Operand} {vb vc : Word} (r : Reg) (hb : resolve s b = .ok vb)
    (hc : resolve s c = .ok vc) (hz : vc.toNat = 0) :
    exec (.mod (.reg r) b c) s = .next (s.faultedBy .divisionByZero 0) :=
  writeBinary_of_error (f := modWord) r hb hc (if_pos hz)

/-- `mod` by a divisor that is not zero (R122). -/
theorem exec_mod_of_ne_zero {s : State} {b c : Operand} {vb vc : Word} (r : Reg) (hb : resolve s b = .ok vb)
    (hc : resolve s c = .ok vc) (hz : vc.toNat ≠ 0) :
    exec (.mod (.reg r) b c) s = .next ((s.setReg r (BitVec.ofNat 16 (vb.toNat % vc.toNat))).advance 4) :=
  writeBinary_of_ok (f := modWord) r hb hc (if_neg hz)

/-- Settles O13: `mod` has the operand errors of its format, and after them `modWord` tests the divisor. -/
theorem modRemainder : Obligations.ModRemainder := by
  constructor
  · exact binaryForm_of_writeBinary modWord (fun _ _ _ => rfl) (fun _ _ _ _ => rfl)
  · intro s r b c vb vc hb hc
    refine ⟨exec_mod_of_zero r hb hc, fun hz => ⟨_, toNat_ofNat_mod vb vc, ?_, exec_mod_of_ne_zero r hb hc hz⟩⟩
    rw [toNat_ofNat_mod]
    exact Nat.mod_lt _ (Nat.pos_of_ne_zero hz)

/-! ### `not` -/

/-- `not` of an operand with a value (R125). -/
theorem exec_not {s : State} {b : Operand} {vb : Word} (r : Reg) (hb : resolve s b = .ok vb) :
    exec (.not (.reg r) b) s = .next ((s.setReg r (notWord vb)).advance 3) :=
  writeUnary_of_ok r hb rfl

/-- `not`, and `not` of its result, leave the complement of the complement in the second destination. -/
theorem execAll_not_not {s : State} {b : Operand} {vb : Word} (r q : Reg) (hb : resolve s b = .ok vb) :
    ∃ t, execAll [.not (.reg r) b, .not (.reg q) (.reg r)] s = .next t ∧ t.reg q = notWord (notWord vb) := by
  have hr : resolve ((s.setReg r (notWord vb)).advance 3) (.reg r) = .ok (notWord vb) := by simp
  refine ⟨_, by rw [execAll_cons _ (exec_not r hb), execAll_cons _ (exec_not q hr), execAll_nil], ?_⟩
  rw [State.advance_reg, State.reg_setReg_same]

/-- Settles O16: `not` has the operand errors of its format and writes `notWord`, which is given as a number and as
bits, and is its own inverse on 15-bit values. -/
theorem notComplements : Obligations.NotComplements := by
  refine ⟨?form, ?value, ?involution⟩
  case form => exact unaryForm_of_writeUnary (fun _ vb => .ok (notWord vb)) (fun _ _ => rfl) (fun _ _ _ => rfl)
  case value =>
    intro s r b vb hb
    exact ⟨notWord vb, toNat_notWord vb, getLsbD_notWord vb, exec_not r hb⟩
  case involution =>
    intro s r q b vb hb hle
    obtain ⟨t, hrun, hq⟩ := execAll_not_not r q hb
    exact ⟨t, hrun, hq.trans (notWord_notWord hle)⟩

/-! ### The ranges of the results -/

/-- A truth value is 0 or 1. -/
theorem truthWord_eq_zero_or_one (p : Bool) : truthWord p = 0 ∨ truthWord p = 1 := by
  cases p with
  | false => exact .inl rfl
  | true => exact .inr rfl

/-- AND does not exceed its first input (R126). -/
theorem toNat_andWord_le (vb vc : Word) : (andWord vb vc).toNat ≤ vb.toNat := by
  rw [andWord, BitVec.toNat_and]
  exact Nat.and_le_left

/-- OR of two 15-bit values is a 15-bit value (R126). -/
theorem toNat_orWord_le {vb vc : Word} (hb : vb.toNat ≤ 32767) (hc : vc.toNat ≤ 32767) :
    (orWord vb vc).toNat ≤ 32767 := by
  rw [orWord, BitVec.toNat_or]
  exact Nat.le_of_lt_succ (Nat.or_lt_two_pow (n := 15) (Nat.lt_succ_of_le hb) (Nat.lt_succ_of_le hc))

/-- A body that does not end in FAULTED had its effect. -/
theorem effect_of_exec {i : Instr} {s t : State} (h : exec i s = .next t) (ht : t.status ≠ .faulted) :
    Effect s t i := by
  rcases exec_next h with ⟨k, info, -, rfl⟩ | heff
  · exact absurd rfl ht
  · exact heff

/-- What a body that `Writes` leaves in its destination. -/
theorem Writes.reg_result {s t : State} {r : Reg} {b : Operand} {len : Nat} {f : Word → Word → Prop}
    (h : Writes s t (.reg r) b len f) : ∃ vb, resolve s b = .ok vb ∧ f vb (t.reg r) := by
  obtain ⟨_, vb, v, ⟨⟩, hb, hf, rfl⟩ := h
  exact ⟨vb, hb, by simpa using hf⟩

/-- What a body that `Writes2` leaves in its destination. -/
theorem Writes2.reg_result {s t : State} {r : Reg} {b c : Operand} {f : Word → Word → Word → Prop}
    (h : Writes2 s t (.reg r) b c f) :
    ∃ vb vc, resolve s b = .ok vb ∧ resolve s c = .ok vc ∧ f vb vc (t.reg r) := by
  obtain ⟨_, vb, vc, v, ⟨⟩, hb, hc, hf, rfl⟩ := h
  exact ⟨vb, vc, hb, hc, by simpa using hf⟩

/-- `Writes2.reg_result` where the operands' values are known. -/
theorem Writes2.reg_result_of_resolve {s t : State} {r : Reg} {b c : Operand} {vb vc : Word}
    {f : Word → Word → Word → Prop} (h : Writes2 s t (.reg r) b c f) (hb : resolve s b = .ok vb)
    (hc : resolve s c = .ok vc) : f vb vc (t.reg r) := by
  obtain ⟨ub, uc, hub, huc, hf⟩ := h.reg_result
  obtain rfl : ub = vb := Except.ok.inj (hub.symm.trans hb)
  obtain rfl : uc = vc := Except.ok.inj (huc.symm.trans hc)
  exact hf

/-- Settles O49: an instruction that completes had its effect, which names the word it wrote; each word is in range by
its number. -/
theorem resultRanges : Obligations.ResultRanges := by
  intro s t r b c
  simp only [List.mem_cons, List.not_mem_nil, or_false, forall_eq_or_imp, forall_eq]
  refine ⟨⟨?add, ?mult, ?not⟩, ⟨?eq, ?gt⟩, ?and, ?or, ?mod⟩
  case add =>
    intro h ht
    obtain ⟨vb, vc, -, -, hv⟩ := Writes2.reg_result (effect_of_exec h ht)
    rw [hv, toNat_addWord]
    omega
  case mult =>
    intro h ht
    obtain ⟨vb, vc, -, -, hv⟩ := Writes2.reg_result (effect_of_exec h ht)
    rw [hv, toNat_multWord]
    omega
  case not =>
    intro h ht
    obtain ⟨vb, -, hv⟩ := Writes.reg_result (effect_of_exec h ht)
    rw [hv, toNat_notWord]
    omega
  case eq | gt =>
    intro h ht
    obtain ⟨vb, vc, -, -, hv⟩ := Writes2.reg_result (effect_of_exec h ht)
    rw [hv]
    exact truthWord_eq_zero_or_one _
  case and =>
    intro vb vc hb hc hvb hvc h ht
    rw [Writes2.reg_result_of_resolve (effect_of_exec h ht) hb hc]
    exact (toNat_andWord_le vb vc).trans hvb
  case or =>
    intro vb vc hb hc hvb hvc h ht
    rw [Writes2.reg_result_of_resolve (effect_of_exec h ht) hb hc]
    exact toNat_orWord_le hvb hvc
  case mod =>
    intro vb vc hb hc hvb hvc h ht
    obtain ⟨-, hv⟩ := Writes2.reg_result_of_resolve (effect_of_exec h ht) hb hc
    rw [hv, toNat_ofNat_mod]
    exact (Nat.mod_le _ _).trans hvb

end Sys2Proof.Machine

/-! PROOFS. The statement of spec/47_call_ret.md about `call`, and before it where an instruction with operands can
stand. -/

namespace Sys2Proof

/-- Where no byte follows the opcode word, only a format without operands is read. -/
theorem Shape.eq_f0_of_read_nil {sh : Shape} {i : Instr} {rest : List Byte} (h : sh.read [] = .instr i rest) :
    sh = .f0 i := by
  rcases Shape.read_eq_instr h with ⟨hsh, -⟩ | ⟨_, _, -, -, hbytes⟩ | ⟨_, _, _, -, -, hbytes⟩ |
    ⟨_, _, _, _, -, -, hbytes⟩
  · exact hsh
  all_goals simp [bytesOfWords] at hbytes

/-- The opcode map gives format F0 only to instructions without operands (R67). -/
theorem operands_of_opcodeMap_f0 {n : Nat} {i : Instr} (h : opcodeMap n = some (.f0 i)) : i.operands = [] := by
  unfold opcodeMap at h
  split at h <;> cases h <;> rfl

end Sys2Proof

namespace Sys2Proof.Machine

/-- An instruction with operands executes only where the cell after its opcode word exists (R83). -/
theorem succ_pc_lt_of_executes {s : State} {i : Instr} (hx : Claims.Executes s i) (hops : i.operands ≠ []) :
    s.pc.toNat + 1 < Config.memWords := by
  obtain ⟨-, hlen, rest, hd⟩ := hx
  by_contra hlast
  rw [decode_fetchWindow (pc_lt_memWords hlen), cellBytes_above _ (not_lt.1 hlast)] at hd
  cases hop : opcodeMap (s.mem.readWord s.pc.toNat).toNat with
  | none => simp [hop] at hd
  | some sh =>
    have hread : sh.read [] = .instr i rest := by simpa [hop] using hd
    rw [Shape.eq_f0_of_read_nil hread] at hop
    exact hops (operands_of_opcodeMap_f0 hop)

/-- Settles O19: `call` resolves its operand before anything else, and commits the return address pushed and the target
written to `pc`; as it has an operand, it executes at most at address 32766. -/
theorem callPushesReturnAddress : Obligations.CallPushesReturnAddress := by
  refine ⟨?form, ?completion, ?bound⟩
  case form =>
    exact valueForm_of_resolve (fun s t => .ok ((s.push (s.pc + 2)).setPc t)) (fun _ => rfl) (fun _ _ => rfl)
  case completion =>
    intro s a t ht
    exact exec_call ht
  case bound =>
    intro s a hx
    have hp : s.pc.toNat + 1 < 32768 := succ_pc_lt_of_executes hx (List.cons_ne_nil a [])
    have hsum : (s.pc + 2).toNat = s.pc.toNat + 2 := State.advance_pc_toNat (n := 2) (Nat.lt_of_succ_lt hp) (by omega)
    refine ⟨hsum, ?_⟩
    omega

end Sys2Proof.Machine

/-! PROOFS. The statement of spec/60_exceptions.md about UnknownOpcode. -/

namespace Sys2Proof.Machine

/-- A word above 21 at `pc` names no instruction, so the decoder stops at it and looks at no operand cell (R82). -/
theorem decode_fetchWindow_unknown {s : State} (hp : s.pc.toNat < Config.memWords)
    (hop : 21 < (s.mem.readWord s.pc.toNat).toNat) :
    decode (fetchWindow s) = .unknownOpcode (s.mem.readWord s.pc.toNat) := by
  rw [decode_fetchWindow hp, (opcodeMap_eq_none_iff _).2 hop]

/-- Settles O32: `pc` below `IMAGE_LEN` addresses a cell, whose word the decoder rejects whatever cells follow, and the
fetch raises with that word. -/
theorem stepUnknownOpcode : Obligations.StepUnknownOpcode := by
  intro s hs hlen hop
  have hunknown := decode_fetchWindow_unknown (pc_lt_memWords hlen) hop
  rw [step_running hs]
  exact stepRunning_unknown hlen hunknown

end Sys2Proof.Machine

/-! PROOFS. The statements of spec/30_encoding.md: the decoder and the encoder undo each other, and the three operand
classes. -/

namespace Sys2Proof

/-! ### Operand classes -/

/-- A word of the literal range is the literal of its low 15 bits (R64). -/
theorem decodeOperand_of_le {w : Word} (h : w.toNat ≤ 32767) : decodeOperand w = .lit (w.setWidth 15) :=
  if_pos h

/-- A word above the register references is invalid and kept whole (R63). -/
theorem decodeOperand_of_gt {w : Word} (h : 32775 < w.toNat) : decodeOperand w = .invalid w :=
  decodeOperand_encodeOperand (.invalid w) (decide_eq_true h)

/-- Settles O25: each range of words has its own decoding rule, and the raw word of the class is the word. -/
theorem operandClasses : Obligations.OperandClasses := by
  intro w
  refine ⟨?literal, ?register, decodeOperand_of_gt, encodeOperand_decodeOperand w⟩
  case literal =>
    intro hw
    refine ⟨w.setWidth 15, ?_, decodeOperand_of_le hw⟩
    rw [BitVec.toNat_setWidth]
    omega
  case register =>
    intro hlo hhi
    refine ⟨⟨w.toNat - 32768, by omega⟩, rfl, decodeOperand_eq_reg_iff.2 ?_⟩
    exact (Nat.add_sub_of_le hlo).symm

/-! ### Words as bytes -/

/-- Byte `2k` is bits 7..0 of word `k` (R42). -/
theorem getElem?_bytesOfWords_even (ws : List Word) (k : Nat) : (bytesOfWords ws)[2 * k]? = ws[k]?.map lowByte := by
  induction ws generalizing k with
  | nil => rfl
  | cons w ws ih =>
    cases k with
    | zero => rfl
    | succ k => exact ih k

/-- Byte `2k + 1` is bits 15..8 of word `k` (R42). -/
theorem getElem?_bytesOfWords_odd (ws : List Word) (k : Nat) :
    (bytesOfWords ws)[2 * k + 1]? = ws[k]?.map highByte := by
  induction ws generalizing k with
  | nil => rfl
  | cons w ws ih =>
    cases k with
    | zero => rfl
    | succ k => exact ih k

/-! ### The opcode map -/

/-- `n` is the opcode of every instruction the shape makes, and the operands are those it was made of. -/
def Shape.Makes (n : Nat) : Shape → Prop
  | .f0 i => i.opcode = n ∧ i.operands = []
  | .f1 mk => ∀ a, (mk a).opcode = n ∧ (mk a).operands = [a]
  | .f2 mk => ∀ a b, (mk a b).opcode = n ∧ (mk a b).operands = [a, b]
  | .f3 mk => ∀ a b c, (mk a b c).opcode = n ∧ (mk a b c).operands = [a, b, c]

/-- The opcode map and `Instr.opcode` agree, row by row (R67). -/
theorem Shape.makes_of_opcodeMap {n : Nat} {sh : Shape} (h : opcodeMap n = some sh) : sh.Makes n := by
  unfold opcodeMap at h
  split at h <;> cases h <;> simp [Shape.Makes, Instr.opcode, Instr.operands]

/-! ### From bytes to an instruction and back -/

/-- A known opcode fits its word, so the decoder finds the shape of an encoded instruction and reads on (R61). -/
theorem decode_encode {i : Instr} {sh : Shape} (h : opcodeMap i.opcode = some sh) (rest : List Byte) :
    decode (encode i ++ rest) = sh.read (bytesOfWords (i.operands.map encodeOperand) ++ rest) := by
  have hknown : ¬ 21 < i.opcode := fun hgt => by simp [(opcodeMap_eq_none_iff _).2 hgt] at h
  have hop : (BitVec.ofNat 16 i.opcode).toNat = i.opcode := Nat.mod_eq_of_lt (by omega)
  rw [encode, encodeWords, bytesOfWords, List.cons_append, List.cons_append, decode_word, hop, h]

theorem Shape.read_f1_encoded (mk : Operand → Instr) {a : Operand} (ha : a.wf = true) (rest : List Byte) :
    (Shape.f1 mk).read (bytesOfWords [encodeOperand a] ++ rest) = .instr (mk a) rest := by
  simp [Shape.read, bytesOfWords, takeWord_bytes, decodeOperand_encodeOperand a ha]

theorem Shape.read_f2_encoded (mk : Operand → Operand → Instr) {a b : Operand} (ha : a.wf = true) (hb : b.wf = true)
    (rest : List Byte) :
    (Shape.f2 mk).read (bytesOfWords [encodeOperand a, encodeOperand b] ++ rest) = .instr (mk a b) rest := by
  simp [Shape.read, bytesOfWords, takeWord_bytes, decodeOperand_encodeOperand a ha, decodeOperand_encodeOperand b hb]

theorem Shape.read_f3_encoded (mk : Operand → Operand → Operand → Instr) {a b c : Operand} (ha : a.wf = true)
    (hb : b.wf = true) (hc : c.wf = true) (rest : List Byte) :
    (Shape.f3 mk).read (bytesOfWords [encodeOperand a, encodeOperand b, encodeOperand c] ++ rest) =
      .instr (mk a b c) rest := by
  simp [Shape.read, bytesOfWords, takeWord_bytes, decodeOperand_encodeOperand a ha, decodeOperand_encodeOperand b hb,
    decodeOperand_encodeOperand c hc]

/-- Settles O23: the opcode selects the instruction's shape, and each operand word decodes to its operand. -/
theorem decodeEncodeRoundTrip : Obligations.DecodeEncodeRoundTrip := by
  intro i rest hwf
  have hops : ∀ o ∈ i.operands, o.wf = true := by simpa [Instr.wf] using hwf
  cases i with
  | halt | ret | noop =>
    refine (decode_encode rfl rest).trans ?_
    rfl
  | push a | pop a | jmp a | call a | out a | inp a =>
    refine (decode_encode rfl rest).trans (Shape.read_f1_encoded _ ?_ rest)
    exact hops a (by simp [Instr.operands])
  | set a b | jt a b | jf a b | not a b | rmem a b | wmem a b =>
    refine (decode_encode rfl rest).trans (Shape.read_f2_encoded _ ?_ ?_ rest)
    · exact hops a (by simp [Instr.operands])
    · exact hops b (by simp [Instr.operands])
  | eq a b c | gt a b c | add a b c | mult a b c | mod a b c | and a b c | or a b c =>
    refine (decode_encode rfl rest).trans (Shape.read_f3_encoded _ ?_ ?_ ?_ rest)
    · exact hops a (by simp [Instr.operands])
    · exact hops b (by simp [Instr.operands])
    · exact hops c (by simp [Instr.operands])

/-- The instruction a shape reads has the operands of the words it took, as many as the arity says. -/
theorem Shape.read_operands {n : Nat} {sh : Shape} {bs rest : List Byte} {i : Instr} (hsh : sh.Makes n)
    (h : sh.read bs = .instr i rest) :
    ∃ ws : List Word, ws.length = sh.arity ∧ i.opcode = n ∧ i.operands = ws.map decodeOperand ∧
      bs = bytesOfWords ws ++ rest := by
  rcases Shape.read_eq_instr h with ⟨rfl, rfl⟩ | ⟨mk, a, rfl, rfl, rfl⟩ | ⟨mk, a, b, rfl, rfl, rfl⟩ |
    ⟨mk, a, b, c, rfl, rfl, rfl⟩
  · obtain ⟨hop, hops⟩ := hsh
    exact ⟨[], rfl, hop, hops, rfl⟩
  · obtain ⟨hop, hops⟩ := hsh (decodeOperand a)
    exact ⟨[a], rfl, hop, hops, rfl⟩
  · obtain ⟨hop, hops⟩ := hsh (decodeOperand a) (decodeOperand b)
    exact ⟨[a, b], rfl, hop, hops, rfl⟩
  · obtain ⟨hop, hops⟩ := hsh (decodeOperand a) (decodeOperand b) (decodeOperand c)
    exact ⟨[a, b, c], rfl, hop, hops, rfl⟩

/-- What the decoder took when it answers an instruction: the opcode word, which selects a shape, and that shape's
operand words. -/
theorem decode_eq_instr {bs rest : List Byte} {i : Instr} (h : decode bs = .instr i rest) :
    ∃ (op : Word) (sh : Shape) (ws : List Word), opcodeMap op.toNat = some sh ∧ ws.length = sh.arity ∧
      i.opcode = op.toNat ∧ i.operands = ws.map decodeOperand ∧ bs = bytesOfWords (op :: ws) ++ rest := by
  cases hw : takeWord bs with
  | none => simp [decode, hw] at h
  | some p =>
    obtain ⟨op, tail⟩ := p
    rw [takeWord_eq_some hw] at h ⊢
    rw [decode_word] at h
    cases hsh : opcodeMap op.toNat with
    | none => simp [hsh] at h
    | some sh =>
      have hread : sh.read tail = .instr i rest := by simpa [hsh] using h
      obtain ⟨ws, hlen, hop, hops, rfl⟩ := Shape.read_operands (Shape.makes_of_opcodeMap hsh) hread
      exact ⟨op, sh, ws, hsh, hlen, hop, hops, rfl⟩

/-- Encoding the classes of operand words gives the words back. -/
theorem map_encodeOperand_decodeOperand (ws : List Word) : (ws.map decodeOperand).map encodeOperand = ws := by
  rw [List.map_map]
  exact List.map_id'' encodeOperand_decodeOperand ws

/-- An instruction made of an opcode word and operand words is encoded as these words. -/
theorem encodeWords_of_words {i : Instr} {op : Word} {ws : List Word} (hop : i.opcode = op.toNat)
    (hops : i.operands = ws.map decodeOperand) : encodeWords i = op :: ws := by
  rw [encodeWords, hop, hops, map_encodeOperand_decodeOperand, BitVec.ofNat_toNat, BitVec.setWidth_eq]

/-- The decoder takes exactly the encoding of its answer (R71). -/
theorem eq_encode_of_decode {bs rest : List Byte} {i : Instr} (h : decode bs = .instr i rest) :
    bs = encode i ++ rest := by
  obtain ⟨op, sh, ws, -, -, hop, hops, rfl⟩ := decode_eq_instr h
  rw [encode, encodeWords_of_words hop hops]

/-- Settles O24: the operands are decoded words, hence well formed, and their encodings are the words taken. -/
theorem decodedBytesAreItsEncoding : Obligations.DecodedBytesAreItsEncoding := by
  intro bs rest i h
  refine ⟨?_, eq_encode_of_decode h⟩
  obtain ⟨op, sh, ws, -, -, -, hops, -⟩ := decode_eq_instr h
  rw [Instr.wf, hops, List.all_map]
  exact List.all_eq_true.2 fun w _ => wf_decodeOperand w

/-- Settles O26: each word sequence is the encoding of its instruction; 265 is not 9, as the opcode word is compared
whole. -/
theorem decodesSpecWords : Obligations.DecodesSpecWords := by
  unfold Obligations.DecodesSpecWords
  decide

end Sys2Proof

/-! PROOFS. The statements of spec/20_memory.md and spec/40_step_and_operands.md about operand values, Memory's cells,
and what a step fetches and completes. -/

namespace Sys2Proof.Machine

/-! ### Operand values -/

/-- Settles O27: the decoded class of the word decides, and its raw word is the word itself. -/
theorem resolveRawWord : Obligations.ResolveRawWord := by
  intro s w
  refine ⟨?literal, ?register, ?invalid⟩
  case literal =>
    intro hw
    have hword := encodeOperand_decodeOperand w
    rw [decodeOperand_of_le hw] at hword ⊢
    exact congrArg Except.ok hword
  case register =>
    intro r hr
    rw [decodeOperand_eq_reg_iff.2 hr]
    exact resolve_reg s r
  case invalid =>
    intro hw
    rw [decodeOperand_of_gt hw, resolve_invalid]

/-! ### Memory -/

theorem memRead_of_le {s : State} {a : Word} (h : a.toNat ≤ 32767) : memRead s a = .ok (s.mem.readWord a.toNat) :=
  if_pos (Nat.lt_succ_of_le h)

theorem memRead_of_gt {s : State} {a : Word} (h : 32767 < a.toNat) : memRead s a = .error ⟨.addressOutOfRange, a⟩ :=
  if_neg (Nat.not_lt.2 h)

theorem memWrite_of_le {s : State} {a : Word} (v : Word) (h : a.toNat ≤ 32767) :
    memWrite s a v = .ok (s.setMem (s.mem.writeWord a.toNat v)) :=
  if_pos (Nat.lt_succ_of_le h)

theorem memWrite_of_gt {s : State} {a : Word} (v : Word) (h : 32767 < a.toNat) :
    memWrite s a v = .error ⟨.addressOutOfRange, a⟩ :=
  if_neg (Nat.not_lt.2 h)

/-- A word write leaves every byte outside its cell (R46). -/
theorem Memory.readByte_writeWord_ne {m : Memory} {k c : Nat} (w : Word) (hk : k < Config.memWords) (hm : m.wf = true)
    (h0 : c ≠ 2 * k) (h1 : c ≠ 2 * k + 1) : (m.writeWord k w).readByte c = m.readByte c := by
  rw [Memory.readByte_writeWord w c hk hm, if_neg h0, if_neg h1]

/-- Settles O29: both accesses make the one bounds test, and a canonical memory reads back what is written to a cell. -/
theorem memoryReadAfterWrite : Obligations.MemoryReadAfterWrite := by
  intro s a v hm
  constructor
  · intro ha
    have hlt : a.toNat < Config.memWords := Nat.lt_succ_of_le ha
    refine ⟨_, memWrite_of_le v ha, Memory.wf_writeWord v hlt hm, ?_, ?_⟩
    · rw [memRead_of_le ha, State.setMem_mem, Memory.readWord_writeWord v _ hlt hm, if_pos rfl]
    · intro k h0 h1
      exact Memory.readByte_writeWord_ne v hlt hm h0 h1
  · intro ha
    exact ⟨memWrite_of_gt v ha, memRead_of_gt ha⟩

/-! ### The cells of the fetch window -/

/-- The window's bytes are those of the cells from `k` on, as many as exist. -/
theorem cellBytes_eq_bytesOfWords (m : Memory) (k n : Nat) :
    cellBytes m k n = bytesOfWords ((List.range' k (min n (Config.memWords - k))).map m.readWord) := by
  induction n generalizing k with
  | zero => rw [Nat.zero_min]; rfl
  | succ n ih =>
    by_cases hk : k < Config.memWords
    · have hmin : min (n + 1) (Config.memWords - k) = min n (Config.memWords - (k + 1)) + 1 := by omega
      rw [cellBytes_succ m hk, ih, hmin, List.range'_succ]
      rfl
    · have hmin : min (n + 1) (Config.memWords - k) = 0 := by omega
      rw [cellBytes_above m (not_lt.1 hk), hmin]
      rfl

/-- Words read from the front of the window are the cells from `k` on, in order. -/
theorem words_of_cellBytes {m : Memory} {k n : Nat} {ws : List Word} {rest : List Byte}
    (h : cellBytes m k n = bytesOfWords ws ++ rest) : ws = (List.range' k ws.length).map m.readWord := by
  induction ws generalizing k n with
  | nil => rfl
  | cons w ws ih =>
    cases n with
    | zero => simp [cellBytes, bytesOfWords] at h
    | succ n =>
      by_cases hk : k < Config.memWords
      · rw [cellBytes_succ m hk, bytesOfWords] at h
        obtain ⟨hlo, hhi, htail⟩ : _ ∧ _ ∧ _ := by simpa using h
        have hw : w = m.readWord k := by rw [← wordOfBytes_low_high w, ← hlo, ← hhi, wordOfBytes_low_high]
        rw [List.length_cons, List.range'_succ, List.map_cons, ← ih htail, hw]
      · simp [cellBytes_above m (not_lt.1 hk), bytesOfWords] at h

/-- The instruction decoded at `pc` has the cells from `pc` on as its words (R82, R83). -/
theorem encodeWords_of_decode_fetchWindow {s : State} {i : Instr} {rest : List Byte}
    (h : decode (fetchWindow s) = .instr i rest) :
    encodeWords i = (List.range' s.pc.toNat i.length).map s.mem.readWord := by
  have hlen : (encodeWords i).length = i.length := by simp [encodeWords, Instr.length, Nat.add_comm]
  rw [← hlen]
  exact words_of_cellBytes (eq_encode_of_decode h)

end Sys2Proof.Machine

namespace Sys2Proof

/-- A shape reads an instruction where its operand words exist. -/
theorem Shape.read_of_arity_le {sh : Shape} {ws : List Word} (h : sh.arity ≤ ws.length) :
    ∃ i rest, sh.read (bytesOfWords ws) = .instr i rest := by
  match sh, ws, h with
  | .f0 i, ws, _ => exact ⟨i, _, rfl⟩
  | .f1 mk, a :: ws, _ =>
    exact ⟨mk (decodeOperand a), bytesOfWords ws, by simp [Shape.read, bytesOfWords, takeWord_bytes]⟩
  | .f2 mk, a :: b :: ws, _ =>
    exact ⟨mk (decodeOperand a) (decodeOperand b), bytesOfWords ws, by simp [Shape.read, bytesOfWords, takeWord_bytes]⟩
  | .f3 mk, a :: b :: c :: ws, _ =>
    exact ⟨mk (decodeOperand a) (decodeOperand b) (decodeOperand c), bytesOfWords ws, by
      simp [Shape.read, bytesOfWords, takeWord_bytes]⟩

/-- Where the bytes end before the last operand word, the first missing word is the one after those that exist (R83). -/
theorem Shape.read_of_lt_arity {sh : Shape} {ws : List Word} (h : ws.length < sh.arity) :
    sh.read (bytesOfWords ws) = .missingWord (ws.length + 1) := by
  match sh, ws, h with
  | .f1 mk, [], _ => rfl
  | .f2 mk, [], _ => rfl
  | .f2 mk, [a], _ => simp [Shape.read, bytesOfWords, takeWord]
  | .f3 mk, [], _ => rfl
  | .f3 mk, [a], _ => simp [Shape.read, bytesOfWords, takeWord]
  | .f3 mk, [a, b], _ => simp [Shape.read, bytesOfWords, takeWord]

/-- No shape has more than three operands (R60). -/
theorem Shape.arity_le (sh : Shape) : sh.arity ≤ 3 := by
  cases sh <;> simp [Shape.arity]

end Sys2Proof

namespace Sys2Proof.Machine

/-- Where the cell at `pc` is a known opcode, its shape reads the cells after it. -/
theorem decode_fetchWindow_known {s : State} {sh : Shape} (hp : s.pc.toNat < Config.memWords)
    (h : opcodeMap (s.mem.readWord s.pc.toNat).toNat = some sh) :
    decode (fetchWindow s) = sh.read (cellBytes s.mem (s.pc.toNat + 1) 3) := by
  rw [decode_fetchWindow hp, h]

/-- Settles O33: of the operand cells those up to 32767 exist, so the first missing word lies at 32768. -/
theorem stepOperandFetchOutOfRange : Obligations.StepOperandFetchOutOfRange := by
  intro s sh hs hlen hsh hout
  have hp : s.pc.toNat < 32768 := pc_lt_memWords hlen
  have harity := sh.arity_le
  have hmissing : decode (fetchWindow s) = .missingWord (32768 - s.pc.toNat) := by
    have hcells : min 3 (Config.memWords - (s.pc.toNat + 1)) = 32768 - (s.pc.toNat + 1) := by
      unfold Config.memWords
      omega
    rw [decode_fetchWindow_known hp hsh, cellBytes_eq_bytesOfWords, hcells,
      Shape.read_of_lt_arity (by simp; omega), List.length_map, List.length_range']
    congr 1
    omega
  rw [step_running hs, stepRunning_missing hlen hmissing, Nat.add_sub_of_le hp.le]
  rfl

/-- Settles O34: the shape reads its operands, which exist, and the words of the instruction are then the cells. -/
theorem fetchReadsConsecutiveCells : Obligations.FetchReadsConsecutiveCells := by
  intro s sh hsh hfit
  have hp : s.pc.toNat < Config.memWords := by unfold Config.memWords; omega
  have harity := sh.arity_le
  obtain ⟨i, rest, hread⟩ : ∃ i rest, sh.read (cellBytes s.mem (s.pc.toNat + 1) 3) = .instr i rest := by
    rw [cellBytes_eq_bytesOfWords]
    refine Shape.read_of_arity_le ?_
    simp [Config.memWords]
    omega
  have hd : decode (fetchWindow s) = .instr i rest := (decode_fetchWindow_known hp hsh).trans hread
  have hlen : i.length = 1 + sh.arity := by
    obtain ⟨ws, hws, -, hops, -⟩ := Shape.read_operands (Shape.makes_of_opcodeMap hsh) hread
    rw [Instr.length, hops, List.length_map, hws]
  refine ⟨i, rest, hd, hlen, ?_⟩
  rw [encodeWords_of_decode_fetchWindow hd, hlen, List.range'_eq_map_range, List.map_map]
  rfl

/-! ### What a step completes -/

/-- Settles O30: below `IMAGE_LEN` the fetch hands the decoded instruction to its body. -/
theorem stepRunsDecodedInstruction : Obligations.StepRunsDecodedInstruction := by
  intro s i rest hs hlen hd
  rw [step_running hs, stepRunning_instr hlen hd]

/-- Settles O31: the end test comes before any fetch. -/
theorem stepEndsAtImageEnd : Obligations.StepEndsAtImageEnd := by
  intro s hs hlen
  rw [step_running hs]
  exact stepRunning_ended hlen

/-- The end test, a raised fetch and a body all answer a next state (R197). -/
theorem stepRunning_total (s : State) : ∃ t, stepRunning s = .next t := by
  unfold stepRunning
  cases fetch s with
  | endOfImage => exact ⟨_, rfl⟩
  | run i => exact exec_total i s
  | error e => exact ⟨_, rfl⟩

theorem awaitInput_nil {s : State} (h : s.input = []) : awaitInput s = .fault .awaitingInput := by
  simp [awaitInput, h]

/-- The step of a waiting core takes the host's first word (R93). -/
theorem awaitInput_cons {s : State} {r : Reg} {c : Word} {rest : List Word} (hs : s.status = .waitInput r)
    (h : s.input = c :: rest) :
    awaitInput s = .next ((((s.setInput rest).setReg r c).advance 2).setStatus .running) := by
  have hwait : (s.setInput rest).status = .waitInput r := hs
  simp [awaitInput, h, deliver_waitInput c hwait]

/-- Settles O35: nothing a RUNNING core meets is without a next state; a waiting core's step turns on the host's
list. -/
theorem runningStepCompletes : Obligations.RunningStepCompletes := by
  constructor
  · intro s hs
    rw [step_running hs]
    exact stepRunning_total s
  · intro s r hs
    refine ⟨⟨?_, ?_⟩, ?_⟩
    · rintro ⟨t, ht⟩ hempty
      simp [step_waitInput hs, awaitInput_nil hempty] at ht
    · intro hne
      obtain ⟨c, rest, hi⟩ := List.exists_cons_of_ne_nil hne
      exact ⟨_, by rw [step_waitInput hs, awaitInput_cons hs hi]⟩
    · intro t ht
      obtain ⟨c, -, heq⟩ := step_delivers hs ht
      rw [heq]
      rfl

/-- Settles O36: of all that a step can do, only raising an error leads to FAULTED. -/
theorem faultingStepWritesNothingElse : Obligations.FaultingStepWritesNothingElse := by
  intro s t h ht
  rcases step_next h with ⟨-, -, rfl⟩ | ⟨-, -, k, info, hk, rfl⟩ | ⟨i, rest, hs, -, -, -, he⟩ | ⟨r, c, rest, -, -, rfl⟩
  · simp at ht
  · exact ⟨hk, rfl⟩
  · exact absurd ht (he.status_ne_faulted hs)
  · simp at ht

/-! ### Terminal statuses -/

/-- Settles O37: `step` and the readout each decide by the status, and the codes are those of the two tables. -/
theorem terminalStatusIsAbsorbing : Obligations.TerminalStatusIsAbsorbing := by
  refine ⟨?nostep, ?statusCodes, ?kindCodes, ?readout, ?noreadout⟩
  case nostep => rintro s (hs | hs | hs) <;> simp [step, hs]
  case statusCodes => exact ⟨rfl, fun _ => rfl, rfl, rfl, rfl⟩
  case kindCodes => exact ⟨rfl, rfl, rfl, rfl, rfl, rfl, rfl⟩
  case readout => rintro s (hs | hs | hs) <;> simp [State.readout, Status.isTerminal, hs]
  case noreadout => rintro s (hs | ⟨r, hs⟩) <;> simp [State.readout, Status.isTerminal, hs]

end Sys2Proof.Machine

/-! PROOFS. The statements of spec/41_system.md to spec/48_io.md about single instructions: `halt`, `jt`, `jf`, `and`,
`or`, the arithmetic laws, `rmem`, `wmem`, `ret`, `out`, `in`. -/

namespace Sys2Proof.Machine

/-! ### `halt` -/

/-- Settles O1: the encoding is the opcode 0 alone, and the body commits the status. -/
theorem haltStopsInPlace : Obligations.HaltStopsInPlace := by
  constructor
  · rfl
  · intro s
    exact commit_ok s (s.setStatus .halted)

/-! ### `jt`, `jf` -/

/-- The condition is examined first (R87). -/
theorem branch_invalid_condition (test : Word → Bool) (w : Word) (b : Operand) (s : State) :
    branch test (.invalid w) b s = .next (s.faultedBy .invalidOperand w) := rfl

theorem branch_taken {test : Word → Bool} {s : State} {a b : Operand} {v t : Word} (hv : resolve s a = .ok v)
    (htest : test v = true) (ht : resolve s b = .ok t) : branch test a b s = .next (s.setPc t) := by
  simp [branch, hv, htest, ht]

theorem branch_taken_invalid {test : Word → Bool} {s : State} {a : Operand} {v : Word} (w : Word)
    (hv : resolve s a = .ok v) (htest : test v = true) :
    branch test a (.invalid w) s = .next (s.faultedBy .invalidOperand w) := by
  simp [branch, hv, htest]

/-- A jump that is not taken does not examine its target, which may be invalid. -/
theorem branch_not_taken {test : Word → Bool} {s : State} {a : Operand} {v : Word} (b : Operand)
    (hv : resolve s a = .ok v) (htest : test v = false) : branch test a b s = .next (s.advance 3) := by
  simp [branch, hv, htest]

/-- An instruction whose body is `branch` is a conditional jump on what its test decides. -/
theorem conditionalJump_of_branch {n : Nat} {mk : Operand → Operand → Instr} {test : Word → Bool} {cond : Nat → Prop}
    (hwords : ∀ a b, encodeWords (mk a b) = [BitVec.ofNat 16 n, encodeOperand a, encodeOperand b])
    (hbody : ∀ a b s, exec (mk a b) s = branch test a b s) (htest : ∀ v, test v = true ↔ cond v.toNat) :
    Claims.ConditionalJump n mk cond := by
  intro s a b
  rw [hbody]
  refine ⟨hwords a b, ?_, fun v hv => ⟨?_, ?_, ?_⟩⟩
  · rintro w rfl
    exact branch_invalid_condition test w b s
  · intro hc t ht
    exact branch_taken hv ((htest v).2 hc) ht
  · rintro hc w rfl
    exact branch_taken_invalid w hv ((htest v).2 hc)
  · intro hc
    exact branch_not_taken b hv (Bool.eq_false_iff.2 fun h => hc ((htest v).1 h))

/-- Settles O9: `jt` is `branch` on the test for a Word that is not zero. -/
theorem jtJumpsWhenNonzero : Obligations.JtJumpsWhenNonzero :=
  conditionalJump_of_branch (fun _ _ => rfl) (fun _ _ _ => rfl) fun _ => decide_eq_true_iff

/-- Settles O10: `jf` is `branch` on the test for the zero Word. -/
theorem jfJumpsWhenZero : Obligations.JfJumpsWhenZero :=
  conditionalJump_of_branch (fun _ _ => rfl) (fun _ _ _ => rfl) fun _ => decide_eq_true_iff

/-! ### `and`, `or` -/

/-- Settles O14: `and` has the operand errors of its format and writes the AND of the whole Words. -/
theorem andBitwise : Obligations.AndBitwise := by
  constructor
  · exact binaryForm_of_writeBinary (fun vb vc => .ok (andWord vb vc)) (fun _ _ _ => rfl) (fun _ _ _ _ => rfl)
  · intro s r b c vb vc hb hc
    exact ⟨andWord vb vc, fun k => BitVec.getLsbD_and, writeBinary_of_ok r hb hc rfl⟩

/-- Settles O15: `or` has the operand errors of its format and writes the OR of the whole Words. -/
theorem orBitwise : Obligations.OrBitwise := by
  constructor
  · exact binaryForm_of_writeBinary (fun vb vc => .ok (orWord vb vc)) (fun _ _ _ => rfl) (fun _ _ _ _ => rfl)
  · intro s r b c vb vc hb hc
    exact ⟨orWord vb vc, fun k => BitVec.getLsbD_or, writeBinary_of_ok r hb hc rfl⟩

/-! ### The arithmetic laws -/

/-- Settles O51: the laws hold of the numbers, and taking remainders by 32768 respects sums and products. -/
theorem modularRingLaws : Obligations.ModularRingLaws := by
  intro a b c
  refine ⟨?addComm, ?multComm, ?addAssoc, ?multAssoc, ?distrib⟩ <;> apply BitVec.eq_of_toNat_eq <;>
    simp only [toNat_addWord, toNat_multWord]
  case addComm => rw [Nat.add_comm]
  case multComm => rw [Nat.mul_comm]
  case addAssoc => rw [Nat.mod_add_mod, Nat.add_mod_mod, Nat.add_assoc]
  case multAssoc => rw [Nat.mod_mul_mod, Nat.mul_mod_mod, Nat.mul_assoc]
  case distrib => rw [Nat.mul_mod_mod, ← Nat.add_mod, Nat.mul_add]

/-- `add` of two operands with values (R120). -/
theorem exec_add {s : State} {b c : Operand} {vb vc : Word} (r : Reg) (hb : resolve s b = .ok vb)
    (hc : resolve s c = .ok vc) : exec (.add (.reg r) b c) s = .next ((s.setReg r (addWord vb vc)).advance 4) :=
  writeBinary_of_ok r hb hc rfl

/-- The literal `32768 - k` is the number it is written with. -/
theorem toNat_encodeOperand_complement {k : BitVec 15} (hk : 1 ≤ k.toNat) :
    (encodeOperand (.lit (BitVec.ofNat 15 (32768 - k.toNat)))).toNat = 32768 - k.toNat := by
  rw [toNat_encodeOperand_lit, BitVec.toNat_ofNat]
  omega

/-- `not`, and `add` of 1 to its result, leave the sum of the complement and 1 in the destination. -/
theorem execAll_not_add_one {s : State} {b : Operand} {v : Word} (r : Reg) (hv : resolve s b = .ok v) :
    ∃ t, execAll [.not (.reg r) b, .add (.reg r) (.reg r) (.lit 1)] s = .next t ∧
      t.reg r = addWord (notWord v) 1 := by
  have hr : resolve ((s.setReg r (notWord v)).advance 3) (.reg r) = .ok (notWord v) := by simp
  refine ⟨_, by rw [execAll_cons _ (exec_not r hv), execAll_cons _ (exec_add r hr rfl), execAll_nil], ?_⟩
  rw [State.advance_reg, State.reg_setReg_same]
  rfl

/-- Settles O52: `32768 - k` is minus `k`, and `32767 - v` plus 1 is minus `v`, modulo 32768. -/
theorem addSubtracts : Obligations.AddSubtracts := by
  intro s r b v k hv hle hk
  constructor
  · refine ⟨_, exec_add r hv rfl, ?_⟩
    rw [State.advance_reg, State.reg_setReg_same, toNat_addWord, toNat_encodeOperand_complement hk]
    have hlt := k.isLt
    split <;> omega
  · obtain ⟨t, hrun, hreg⟩ := execAll_not_add_one r hv
    refine ⟨t, hrun, ?_⟩
    have hone : (1 : Word).toNat = 1 := rfl
    rw [hreg, toNat_addWord, toNat_notWord, hone]
    omega

/-! ### `rmem`, `wmem` -/

/-- With a register destination and a value that `f` refuses, `f`'s error is raised. -/
theorem writeUnary_of_error {f : Word → Except Err Word} {s : State} {b : Operand} {vb : Word} {e : Err} (r : Reg)
    (hb : resolve s b = .ok vb) (hf : f vb = .error e) :
    writeUnary f (.reg r) b s = .next (s.faultedBy e.kind e.info) := by
  simp [writeUnary, hb, hf]

/-- Settles O17: `rmem` has the operand errors of its format, and after them the read tests the address. -/
theorem rmemReadsCell : Obligations.RmemReadsCell := by
  constructor
  · exact unaryForm_of_writeUnary memRead (fun _ _ => rfl) (fun _ _ _ => rfl)
  · intro s r b addr hb
    exact ⟨fun hle => writeUnary_of_ok (f := memRead s) r hb (memRead_of_le hle),
      fun hgt => writeUnary_of_error (f := memRead s) r hb (memRead_of_gt hgt)⟩

/-- `wmem` to a cell (R136). -/
theorem exec_wmem {s : State} {a b : Operand} {addr v : Word} (ha : resolve s a = .ok addr) (hb : resolve s b = .ok v)
    (hle : addr.toNat ≤ 32767) :
    exec (.wmem a b) s = .next ((s.setMem (s.mem.writeWord addr.toNat v)).advance 3) := by
  simp [exec, execWmem, ha, hb, memWrite_of_le v hle]

/-- `wmem` to an address above Memory (R45). -/
theorem exec_wmem_of_gt {s : State} {a b : Operand} {addr v : Word} (ha : resolve s a = .ok addr)
    (hb : resolve s b = .ok v) (hgt : addr.toNat > 32767) :
    exec (.wmem a b) s = .next (s.faultedBy .addressOutOfRange addr) := by
  simp [exec, execWmem, ha, hb, memWrite_of_gt v hgt]

/-- Settles O18: the operands are resolved in order, then the write tests the address; a canonical memory reads back
what the write put in the cell. -/
theorem wmemWritesCell : Obligations.WmemWritesCell := by
  intro s a b
  refine ⟨rfl, ?invalidAddress, ?invalidValue, fun _ _ => exec_wmem_of_gt, ?completion⟩
  case invalidAddress =>
    rintro w rfl
    rfl
  case invalidValue =>
    rintro addr w ha rfl
    simp [exec, execWmem, ha]
  case completion =>
    intro addr v ha hb hle hm
    have hlt : addr.toNat < Config.memWords := Nat.lt_succ_of_le hle
    exact ⟨_, exec_wmem ha hb hle, Memory.wf_writeWord v hlt hm, fun k => Memory.readWord_writeWord v k hlt hm⟩

/-! ### `call`, `ret` -/

/-- Settles O20: `RET_EMPTY` matters on the empty stack only. -/
theorem retPopsCursor : Obligations.RetPopsCursor := by
  refine ⟨rfl, ?pops, ?underflow, ?halts, ?same⟩
  case pops =>
    intro s t rest hs
    exact exec_ret hs
  case underflow =>
    intro s hs
    simp [exec, execRet, retWith, Config.retEmpty, pop, hs]
  case halts =>
    intro s hs
    simp [retWith, hs, State.setStatus]
  case same =>
    intro s t rest hs
    simp [retWith, hs]

/-- Settles O54: the stack `call` leaves has `pc + 2` on top of the caller's stack. -/
theorem callThenRetResumes : Obligations.CallThenRetResumes := by
  intro s u a v hv
  exact ⟨_, exec_call hv, rfl, fun hu => ⟨_, exec_ret hu, rfl, rfl⟩⟩

/-! ### `out`, `in` -/

/-- `out` of an operand with a value (R145). -/
theorem exec_out {s : State} {a : Operand} {v : Word} (h : resolve s a = .ok v) :
    exec (.out a) s = .next ((s.emit v).advance 2) := by
  simp [exec, execOut, h]

/-- Settles O21: `out` resolves its operand before anything else, and commits the emission followed by the advance. -/
theorem outEmitsWord : Obligations.OutEmitsWord := by
  constructor
  · exact valueForm_of_resolve (fun s v => .ok ((s.emit v).advance 2)) (fun _ => rfl) (fun _ _ => rfl)
  · intro s a v hv
    exact exec_out hv

/-- Settles O22: the body checks the destination and suspends; the step out of the wait turns on the host's list. -/
theorem inSuspendsThenCompletes : Obligations.InSuspendsThenCompletes := by
  intro s a
  refine ⟨rfl, ?destination, ?halves⟩
  case destination =>
    intro ha
    rw [exec, execIn, dst_of_not_reg ha, error_bind, commit_error]
  case halves =>
    rintro r rfl
    have hwait : (s.setStatus (.waitInput r)).status = .waitInput r := rfl
    refine ⟨_, rfl, rfl, ?_, ?_⟩
    · intro c rest hi
      exact (step_waitInput hwait).trans (awaitInput_cons hwait hi)
    · intro hi
      exact (step_waitInput hwait).trans (awaitInput_nil hi)

end Sys2Proof.Machine

/-! PROOFS. What instructions leave unchanged: first one rule per field of the state for every body, then the frames of
the instruction groups (spec/10_state.md, spec/40_step_and_operands.md). -/

namespace Sys2Proof.Machine

open Claims

/-! ### One rule per field -/

/-- `t` differs from `s` at most in the registers, `pc`, the stack and `STATUS`. -/
def CoreChange (s t : State) : Prop :=
  ∃ x pc st status, t = { s with x := x, pc := pc, stack := st, status := status }

theorem Writes.coreChange {s t : State} {a b : Operand} {len : Nat} {f : Word → Word → Prop}
    (h : Writes s t a b len f) : CoreChange s t := by
  obtain ⟨r, vb, v, -, -, -, rfl⟩ := h
  exact ⟨_, _, _, _, rfl⟩

theorem Writes2.coreChange {s t : State} {a b c : Operand} {f : Word → Word → Word → Prop}
    (h : Writes2 s t a b c f) : CoreChange s t := by
  obtain ⟨r, vb, vc, v, -, -, -, -, rfl⟩ := h
  exact ⟨_, _, _, _, rfl⟩

/-- Besides registers, `pc`, stack and `STATUS`, only `wmem` and `out` write anything. -/
theorem Effect.core_or_wmem_or_out {i : Instr} {s t : State} (h : Effect s t i) :
    CoreChange s t ∨ (∃ a b, i = .wmem a b) ∨ ∃ a, i = .out a := by
  cases i with
  | wmem a b => exact .inr (.inl ⟨a, b, rfl⟩)
  | out a => exact .inr (.inr ⟨a, rfl⟩)
  | halt | noop => cases h; exact .inl ⟨_, _, _, _, rfl⟩
  | set | not | rmem => exact .inl (Writes.coreChange h)
  | eq | gt | add | mult | mod | and | or => exact .inl (Writes2.coreChange h)
  | push | jmp | call => obtain ⟨v, -, rfl⟩ := h; exact .inl ⟨_, _, _, _, rfl⟩
  | pop => obtain ⟨r, v, rest, -, -, rfl⟩ := h; exact .inl ⟨_, _, _, _, rfl⟩
  | jt | jf => obtain ⟨v, -, ⟨-, u, -, rfl⟩ | ⟨-, rfl⟩⟩ := h <;> exact .inl ⟨_, _, _, _, rfl⟩
  | ret => obtain ⟨u, rest, -, rfl⟩ := h; exact .inl ⟨_, _, _, _, rfl⟩
  | inp => obtain ⟨r, -, rfl⟩ := h; exact .inl ⟨_, _, _, _, rfl⟩

/-- Of the effects only that of `wmem` writes Memory (R41). -/
theorem Effect.mem_eq {i : Instr} {s t : State} (h : Effect s t i) (hi : ∀ a b, i ≠ .wmem a b) : t.mem = s.mem := by
  rcases h.core_or_wmem_or_out with ⟨x, pc, st, status, rfl⟩ | ⟨a, b, rfl⟩ | ⟨a, rfl⟩
  · rfl
  · exact absurd rfl (hi a b)
  · obtain ⟨v, -, rfl⟩ := h
    rfl

/-- Of the effects only that of `out` writes the trace (R147). -/
theorem Effect.output_eq {i : Instr} {s t : State} (h : Effect s t i) (hi : ∀ a, i ≠ .out a) :
    t.output = s.output := by
  rcases h.core_or_wmem_or_out with ⟨x, pc, st, status, rfl⟩ | ⟨a, b, rfl⟩ | ⟨a, rfl⟩
  · rfl
  · obtain ⟨addr, v, -, -, -, rfl⟩ := h
    rfl
  · exact absurd rfl (hi a)

/-- No effect writes `ERR_KIND` or `ERR_INFO`. -/
theorem Effect.err_eq {i : Instr} {s t : State} (h : Effect s t i) :
    t.errKind = s.errKind ∧ t.errInfo = s.errInfo := by
  rcases h.core_or_wmem_or_out with ⟨x, pc, st, status, rfl⟩ | ⟨a, b, rfl⟩ | ⟨a, rfl⟩
  · exact ⟨rfl, rfl⟩
  · obtain ⟨addr, v, -, -, -, rfl⟩ := h
    exact ⟨rfl, rfl⟩
  · obtain ⟨v, -, rfl⟩ := h
    exact ⟨rfl, rfl⟩

theorem exec_sameMemory {i : Instr} {s t : State} (h : exec i s = .next t) (hi : ∀ a b, i ≠ .wmem a b) :
    SameMemory s t := by
  intro k
  rcases exec_next h with ⟨kind, info, -, rfl⟩ | he
  · rfl
  · rw [he.mem_eq hi]

theorem exec_output_eq {i : Instr} {s t : State} (h : exec i s = .next t) (hi : ∀ a, i ≠ .out a) :
    t.output = s.output := by
  rcases exec_next h with ⟨kind, info, -, rfl⟩ | he
  · rfl
  · exact he.output_eq hi

theorem exec_err_eq {i : Instr} {s t : State} (h : exec i s = .next t) :
    t.status = .faulted ∨ (t.errKind = s.errKind ∧ t.errInfo = s.errInfo) := by
  rcases exec_next h with ⟨kind, info, -, rfl⟩ | he
  · exact .inl rfl
  · exact .inr he.err_eq

theorem exec_statusKept {i : Instr} {s t : State} (h : exec i s = .next t) (hhalt : i ≠ .halt)
    (hinp : ∀ a, i ≠ .inp a) : StatusKeptUnlessRaised s t := by
  rcases exec_next h with ⟨kind, info, -, rfl⟩ | he
  · exact .inl rfl
  · rcases he.status_cases with hk | ⟨hi, -⟩ | ⟨r, hi, -⟩
    · exact .inr ⟨hk, he.err_eq⟩
    · exact absurd hi hhalt
    · exact absurd hi (hinp _)

/-! ### The instructions that write a register -/

theorem Writes.eq_setReg {s t : State} {a b : Operand} {len : Nat} {f : Word → Word → Prop}
    (h : Writes s t a b len f) : ∃ r v n, a = .reg r ∧ t = (s.setReg r v).advance n := by
  obtain ⟨r, vb, v, ha, -, -, rfl⟩ := h
  exact ⟨r, v, len, ha, rfl⟩

theorem Writes2.eq_setReg {s t : State} {a b c : Operand} {f : Word → Word → Word → Prop}
    (h : Writes2 s t a b c f) : ∃ r v n, a = .reg r ∧ t = (s.setReg r v).advance n := by
  obtain ⟨r, vb, vc, v, ha, -, -, -, rfl⟩ := h
  exact ⟨r, v, 4, ha, rfl⟩

/-- The group writes the register `a` names and `pc`. -/
theorem Effect.eq_setReg {i : Instr} {s t : State} {a b c : Operand} (h : Effect s t i)
    (hi : i ∈ writesRegister a b c) : ∃ r v n, a = .reg r ∧ t = (s.setReg r v).advance n := by
  simp only [writesRegister, List.mem_cons, List.not_mem_nil, or_false] at hi
  rcases hi with rfl | rfl | rfl | rfl | rfl | rfl | rfl | rfl | rfl | rfl
  exacts [Writes.eq_setReg h, Writes2.eq_setReg h, Writes2.eq_setReg h, Writes2.eq_setReg h, Writes2.eq_setReg h,
    Writes2.eq_setReg h, Writes2.eq_setReg h, Writes2.eq_setReg h, Writes.eq_setReg h, Writes.eq_setReg h]

/-- Settles O56: an error writes the status fields only, and the effect of the group is `setReg` and an advance. -/
theorem registerWritersFrame : Obligations.RegisterWritersFrame := by
  intro s t a b c i hi h
  rcases exec_next h with ⟨kind, info, -, rfl⟩ | he
  · exact ⟨fun _ _ => rfl, rfl, fun _ => rfl, rfl, rfl, rfl, .inl rfl⟩
  · obtain ⟨r, v, n, rfl, rfl⟩ := he.eq_setReg hi
    refine ⟨fun q hq => ?_, rfl, fun _ => rfl, rfl, rfl, rfl, .inr ⟨rfl, rfl, rfl⟩⟩
    rw [State.advance_reg, State.reg_setReg_ne s (fun hqr => hq (congrArg Operand.reg hqr.symm)) v]

/-! ### The stack instructions -/

/-- Settles O57: Memory, ports and status follow from the rules for every body; registers and stack from what each of
the four writes. -/
theorem stackInstructionsFrame : Obligations.StackInstructionsFrame := by
  intro s t a
  refine ⟨?kept, ?registers, ?popRegisters, ?pushes, ?pops⟩
  case kept =>
    intro i hi h
    have hwmem : ∀ b c, i ≠ .wmem b c := by rintro b c rfl; simp at hi
    have hout : ∀ b, i ≠ .out b := by rintro b rfl; simp at hi
    have hhalt : i ≠ .halt := by rintro rfl; simp at hi
    have hinp : ∀ b, i ≠ .inp b := by rintro b rfl; simp at hi
    obtain ⟨hlen, hinput⟩ := exec_keeps_host h
    exact ⟨exec_sameMemory h hwmem, hlen, hinput, exec_output_eq h hout, exec_statusKept h hhalt hinp⟩
  case registers =>
    intro i hi h r
    rcases exec_next h with ⟨kind, info, -, rfl⟩ | he
    · rfl
    simp only [List.mem_cons, List.not_mem_nil, or_false] at hi
    rcases hi with rfl | rfl | rfl
    · obtain ⟨v, -, rfl⟩ := he; rfl
    · obtain ⟨u, -, rfl⟩ := he; rfl
    · obtain ⟨u, rest, -, rfl⟩ := he; rfl
  case popRegisters =>
    intro h r hr
    rcases exec_next h with ⟨kind, info, -, rfl⟩ | ⟨q, v, rest, rfl, -, rfl⟩
    · rfl
    · rw [State.advance_reg, State.reg_setReg_ne _ (fun hrq => hr (congrArg Operand.reg hrq.symm)) v,
        State.setStack_reg]
  case pushes =>
    intro i hi h
    rcases exec_next h with ⟨kind, info, -, rfl⟩ | he
    · exact .inl rfl
    simp only [List.mem_cons, List.not_mem_nil, or_false] at hi
    rcases hi with rfl | rfl
    · obtain ⟨v, -, rfl⟩ := he; exact .inr rfl
    · obtain ⟨u, -, rfl⟩ := he; exact .inr rfl
  case pops =>
    intro i hi h
    rcases exec_next h with ⟨kind, info, -, rfl⟩ | he
    · exact .inl rfl
    simp only [List.mem_cons, List.not_mem_nil, or_false] at hi
    rcases hi with rfl | rfl
    · obtain ⟨r, v, rest, -, hs, rfl⟩ := he; exact .inr (by rw [hs]; rfl)
    · obtain ⟨u, rest, hs, rfl⟩ := he; exact .inr (by rw [hs]; rfl)

/-! ### The control and port instructions -/

/-- The group writes neither a register nor the stack. -/
theorem Effect.x_stack_eq {i : Instr} {s t : State} {a b : Operand} (h : Effect s t i)
    (hi : i ∈ [Instr.jmp a, .jt a b, .jf a b, .noop, .halt, .out a, .inp a]) : t.x = s.x ∧ t.stack = s.stack := by
  simp only [List.mem_cons, List.not_mem_nil, or_false] at hi
  rcases hi with rfl | rfl | rfl | rfl | rfl | rfl | rfl
  · obtain ⟨u, -, rfl⟩ := h; exact ⟨rfl, rfl⟩
  · obtain ⟨v, -, ⟨-, u, -, rfl⟩ | ⟨-, rfl⟩⟩ := h <;> exact ⟨rfl, rfl⟩
  · obtain ⟨v, -, ⟨-, u, -, rfl⟩ | ⟨-, rfl⟩⟩ := h <;> exact ⟨rfl, rfl⟩
  · cases h; exact ⟨rfl, rfl⟩
  · cases h; exact ⟨rfl, rfl⟩
  · obtain ⟨v, -, rfl⟩ := h; exact ⟨rfl, rfl⟩
  · obtain ⟨r, -, rfl⟩ := h; exact ⟨rfl, rfl⟩

/-- Settles O58: all but registers and stack follows from the rules for every body, each with its exceptions left out of
the list. -/
theorem controlAndPortFrame : Obligations.ControlAndPortFrame := by
  intro s t a b
  refine ⟨?kept, ?trace, ?status, ?errors⟩
  case kept =>
    intro i hi h
    have hwmem : ∀ c d, i ≠ .wmem c d := by rintro c d rfl; simp at hi
    obtain ⟨hreg, hstack⟩ : (∀ r, t.reg r = s.reg r) ∧ t.stack = s.stack := by
      rcases exec_next h with ⟨kind, info, -, rfl⟩ | he
      · exact ⟨fun _ => rfl, rfl⟩
      · obtain ⟨hx, hstack⟩ := he.x_stack_eq hi
        exact ⟨fun r => by rw [State.reg, State.reg, hx], hstack⟩
    exact ⟨hreg, hstack, exec_sameMemory h hwmem, exec_keeps_host h⟩
  case trace =>
    intro i hi h
    exact exec_output_eq h (by rintro c rfl; simp at hi)
  case status =>
    intro i hi h
    exact exec_statusKept h (by rintro rfl; simp at hi) (by rintro c rfl; simp at hi)
  case errors =>
    intro i _ h
    exact exec_err_eq h

/-! ### `wmem` -/

/-- Settles O59: a `wmem` that raises writes the status fields only, and its effect is one word written and an
advance. -/
theorem wmemFrame : Obligations.WmemFrame := by
  intro s t a b hm h
  rcases exec_next h with ⟨kind, info, -, rfl⟩ | ⟨addr, v, ha, hb, hlt, rfl⟩
  · exact ⟨fun _ => rfl, rfl, rfl, rfl, rfl, .inl rfl, fun _ _ _ _ _ => rfl, fun _ _ => rfl⟩
  · refine ⟨fun _ => rfl, rfl, rfl, rfl, rfl, .inr ⟨rfl, rfl, rfl⟩, ?cell, ?nothing⟩
    case cell =>
      intro addr' ha' k h0 h1
      obtain rfl : addr = addr' := Except.ok.inj (ha.symm.trans ha')
      exact Memory.readByte_writeWord_ne v hlt hm h0 h1
    case nothing =>
      intro hgt
      exact absurd hlt (Nat.not_lt.2 (hgt addr v ha hb))

end Sys2Proof.Machine

/-! PROOFS. The whole machine: the invariant, reset and load (spec/70_reset_and_hazards.md), and what a step does to
Memory, the ports and the values (spec/10_state.md, spec/20_memory.md, spec/48_io.md). -/

namespace Sys2Proof.Machine

open Claims

/-! ### The invariant -/

/-- Every effect keeps the canonical form of Memory. -/
theorem Effect.mem_wf {i : Instr} {s t : State} (h : Effect s t i) (hm : s.mem.wf = true) : t.mem.wf = true := by
  rcases h.core_or_wmem_or_out with ⟨x, pc, st, status, rfl⟩ | ⟨a, b, rfl⟩ | ⟨a, rfl⟩
  · exact hm
  · obtain ⟨addr, v, -, -, hlt, rfl⟩ := h
    exact Memory.wf_writeWord v hlt hm
  · obtain ⟨v, -, rfl⟩ := h
    exact hm

/-- Every step keeps the canonical form of Memory. -/
theorem step_mem_wf {s t : State} (h : step s = .next t) (hm : s.mem.wf = true) : t.mem.wf = true := by
  rcases step_next h with ⟨-, -, rfl⟩ | ⟨-, -, k, info, -, rfl⟩ | ⟨i, rest, -, -, -, -, he⟩ | ⟨r, c, rest, -, -, rfl⟩
  · exact hm
  · exact hm
  · exact he.mem_wf hm
  · exact hm

/-- Where `halt` is decoded, the cell at `pc` is 0. -/
theorem readWord_pc_of_halt {s : State} {rest : List Byte} (hd : decode (fetchWindow s) = .instr .halt rest) :
    s.mem.readWord s.pc.toNat = 0 := by
  have hwords := encodeWords_of_decode_fetchWindow hd
  simpa [Instr.length, Instr.operands, encodeWords, Instr.opcode] using hwords.symm

/-- Where `in` is decoded, the cell at `pc` is 20 and the next one its operand. -/
theorem readWord_pc_of_inp {s : State} {a : Operand} {rest : List Byte}
    (hd : decode (fetchWindow s) = .instr (.inp a) rest) :
    s.mem.readWord s.pc.toNat = 20 ∧ s.mem.readWord (s.pc.toNat + 1) = encodeOperand a := by
  have hwords := encodeWords_of_decode_fetchWindow hd
  simpa [Instr.length, Instr.operands, encodeWords, Instr.opcode, List.range'] using hwords.symm

/-- The status fields agree after an executed instruction: it kept a RUNNING status, halted at the `halt` at `pc`, or
waits at the `in` at `pc`. -/
theorem Effect.statusOk {i : Instr} {s t : State} (h : Effect s t i) (hx : Executes s i) (hok : s.statusOk) :
    t.statusOk := by
  have ⟨hs, hlen, rest, hd⟩ := hx
  obtain ⟨hkind, hinfo⟩ : s.errKind = .none ∧ s.errInfo = 0 := by simpa [State.statusOk, hs] using hok
  rcases h.status_cases with hk | ⟨rfl, rfl⟩ | ⟨r, rfl, rfl⟩
  · obtain ⟨hkind', hinfo'⟩ := h.err_eq
    simp [State.statusOk, hk, hs, hkind', hinfo', hkind, hinfo]
  · exact ⟨hkind, hinfo, hlen, readWord_pc_of_halt hd⟩
  · exact ⟨hkind, hinfo, hlen, succ_pc_lt_of_executes (s := s) hx (List.cons_ne_nil _ _), readWord_pc_of_inp hd⟩

/-- The status fields agree after every step. -/
theorem step_statusOk {s t : State} (h : step s = .next t) (hok : s.statusOk) : t.statusOk := by
  rcases step_next h with ⟨hs, hlen, rfl⟩ | ⟨-, -, k, info, hk, rfl⟩ | ⟨i, rest, hs, hlen, hd, -, he⟩ |
    ⟨r, c, rest, hs, -, rfl⟩
  · obtain ⟨hkind, hinfo⟩ : s.errKind = .none ∧ s.errInfo = 0 := by simpa [State.statusOk, hs] using hok
    exact ⟨hkind, hinfo, hlen⟩
  · exact hk
  · exact he.statusOk ⟨hs, hlen, rest, hd⟩ hok
  · obtain ⟨hkind, hinfo, -⟩ : s.errKind = .none ∧ s.errInfo = 0 ∧ _ := by simpa [State.statusOk, hs] using hok
    exact ⟨hkind, hinfo⟩

/-- Settles O39: the two halves of the invariant are each kept by every step. -/
theorem stepKeepsInvariant : Obligations.StepKeepsInvariant := by
  intro s t hi h
  exact ⟨step_mem_wf h hi.mem, step_statusOk h hi.status⟩

/-! ### Reset and load -/

theorem Memory.wf_nil : Memory.wf [] = true := rfl

theorem Memory.readWord_nil (k : Nat) : Memory.readWord [] k = 0 := by
  rw [Memory.readWord, Memory.readByte, Memory.readByte]
  decide

/-- Settles O40: reset leaves the empty memory and RUNNING without an error. -/
theorem resetMeetsInvariant : Obligations.ResetMeetsInvariant :=
  ⟨State.reset_mem_wf, rfl, rfl⟩

theorem reset_x (r : Reg) : State.reset.x[r] = 0 := by
  simp [State.reset]

/-- Settles O42: each field is the one `State.reset` writes out; no cell is listed, so every cell reads 0. -/
theorem resetValues : Obligations.ResetValues :=
  ⟨reset_x, rfl, rfl, Memory.readWord_nil, rfl, rfl, rfl, rfl⟩

/-- Words written to the empty memory from cell 0 on: they read back, and every other cell reads 0 (R47). -/
theorem Memory.readWord_writeWords_nil {image : List Word} (hlen : image.length ≤ 32768) (k : Nat) :
    (Memory.writeWords [] 0 image).readWord k = image[k]?.getD 0 := by
  rw [Memory.readWord_writeWords image Memory.wf_nil (by unfold Config.memWords; omega) k]
  by_cases hk : k < image.length
  · simp [hk]
  · simp [hk, Memory.readWord_nil]

/-- An image that fits gives an initial state that differs from reset in Memory, `IMAGE_LEN` and the host's words. -/
theorem init_of_le {image : List Word} (input : List Word) (hlen : image.length ≤ 32768) :
    State.init image input = some { State.reset with
      mem := Memory.writeWords [] 0 image, imageLen := ⟨image.length, Nat.lt_succ_of_le hlen⟩, input := input } :=
  dif_pos hlen

theorem init_of_gt {image : List Word} (input : List Word) (hlen : 32768 < image.length) :
    State.init image input = none :=
  dif_neg (Nat.not_le.2 hlen)

/-- Settles O41: the fields that are not those of reset are Memory, which holds the image, `IMAGE_LEN` and the input. -/
theorem initLoadsImage : Obligations.InitLoadsImage := by
  intro image input
  constructor
  · intro hlen
    have hwf : (Memory.writeWords [] 0 image).wf = true := Memory.wf_writeWords image Memory.wf_nil
    refine ⟨_, init_of_le input hlen, ⟨hwf, rfl, rfl⟩, reset_x, rfl, rfl, rfl, ?image, ?beyond, rfl, rfl, rfl, rfl, rfl⟩
    case image =>
      intro k v hv
      simp [Memory.readWord_writeWords_nil hlen, hv]
    case beyond =>
      intro k hk
      simp [Memory.readWord_writeWords_nil hlen, hk]
  · exact init_of_gt input

/-- A file of an even number of bytes is a sequence of words, low byte first (R42). -/
theorem wordsOfBytes_of_even {file : List Byte} {n : Nat} (h : file.length = 2 * n) :
    ∃ ws : List Word, wordsOfBytes file = some ws ∧ ws.length = n ∧ file = bytesOfWords ws := by
  induction n generalizing file with
  | zero =>
    obtain rfl : file = [] := List.length_eq_zero_iff.1 h
    exact ⟨[], rfl, rfl, rfl⟩
  | succ n ih =>
    match file, h with
    | lo :: hi :: tail, h =>
      obtain ⟨ws, hws, hlen, htail⟩ := ih (file := tail) (by simp at h; omega)
      refine ⟨wordOfBytes lo hi :: ws, by simp [wordsOfBytes, hws], by simp [hlen], ?_⟩
      rw [bytesOfWords, lowByte_wordOfBytes, highByte_wordOfBytes, htail]

/-- A file of an odd number of bytes is refused (R43). -/
theorem wordsOfBytes_of_odd {file : List Byte} {n : Nat} (h : file.length = 2 * n + 1) : wordsOfBytes file = none := by
  induction n generalizing file with
  | zero =>
    obtain ⟨b, rfl⟩ := List.length_eq_one_iff.1 h
    rfl
  | succ n ih =>
    match file, h with
    | lo :: hi :: tail, h => rw [wordsOfBytes, ih (by simp at h; omega), Option.map_none]

/-- A file loads as its words. -/
theorem load_eq_init {file : List Byte} {ws : List Word} (input : List Word) (h : wordsOfBytes file = some ws) :
    State.load file input = State.init ws input := by
  rw [State.load, h, Option.bind_some]

/-- A byte of a word sequence belongs to a word of it. -/
theorem exists_of_map_eq_some {ws : List Word} {k : Nat} {f : Word → Byte} {b : Byte} (h : ws[k]?.map f = some b) :
    f (ws[k]?.getD 0) = b := by
  obtain ⟨w, hw, rfl⟩ := Option.map_eq_some_iff.1 h
  rw [hw, Option.getD_some]

/-- Settles O43: an even file is the bytes of its words, which the memory of the loaded state holds. -/
theorem loadLittleEndian : Obligations.LoadLittleEndian := by
  intro file input
  constructor
  · intro n hlen hn
    obtain ⟨ws, hws, rfl, rfl⟩ := wordsOfBytes_of_even hlen
    refine ⟨_, (load_eq_init input hws).trans (init_of_le input hn), rfl, fun k b => ⟨fun hb => ?_, fun hb => ?_⟩⟩
    · rw [getElem?_bytesOfWords_even] at hb
      rw [Memory.readWord_writeWords_nil hn, exists_of_map_eq_some hb]
    · rw [getElem?_bytesOfWords_odd] at hb
      rw [Memory.readWord_writeWords_nil hn, exists_of_map_eq_some hb]
  · intro hbad
    rcases Nat.even_or_odd' file.length with ⟨n, heven | hodd⟩
    · obtain ⟨ws, hws, hn, -⟩ := wordsOfBytes_of_even heven
      rw [load_eq_init input hws, init_of_gt input (by omega)]
    · rw [State.load, wordsOfBytes_of_odd hodd, Option.bind_none]

/-! ### Memory and the ports during a run -/

/-- Settles O45: of all that a step can do, only a `wmem` writes Memory, and it writes one word. -/
theorem onlyWmemChangesMemory : Obligations.OnlyWmemChangesMemory := by
  intro s t hm h
  rcases step_next h with ⟨-, -, rfl⟩ | ⟨-, -, k, info, -, rfl⟩ | ⟨i, rest, hs, hlen, hd, -, he⟩ |
    ⟨r, c, rest, -, -, rfl⟩
  · exact .inl fun _ => rfl
  · exact .inl fun _ => rfl
  · by_cases hi : ∃ a b, i = .wmem a b
    · obtain ⟨a, b, rfl⟩ := hi
      obtain ⟨addr, v, ha, -, hlt, rfl⟩ := he
      exact .inr ⟨a, b, addr, ⟨hs, hlen, rest, hd⟩, ha, fun k h0 h1 => Memory.readByte_writeWord_ne v hlt hm h0 h1⟩
    · refine .inl fun _ => ?_
      rw [he.mem_eq fun a b hab => hi ⟨a, b, hab⟩]
  · exact .inl fun _ => rfl

/-- Settles O46: of all that a step can do, only an `out` writes the trace, and it adds one word. -/
theorem onlyOutEmits : Obligations.OnlyOutEmits := by
  intro s t h
  rcases step_next h with ⟨-, -, rfl⟩ | ⟨-, -, k, info, -, rfl⟩ | ⟨i, rest, hs, hlen, hd, -, he⟩ |
    ⟨r, c, rest, -, -, rfl⟩
  · exact .inl rfl
  · exact .inl rfl
  · by_cases hi : ∃ a, i = .out a
    · obtain ⟨a, rfl⟩ := hi
      obtain ⟨v, hv, rfl⟩ := he
      exact .inr ⟨a, v, ⟨hs, hlen, rest, hd⟩, hv, rfl⟩
    · exact .inl (he.output_eq fun a ha => hi ⟨a, ha⟩)
  · exact .inl rfl

/-- Outside WAIT_INPUT a word offered is not taken (R148). -/
theorem deliver_of_not_waiting {s : State} (c : Word) (h : ∀ r, s.status ≠ .waitInput r) : deliver c s = s := by
  unfold deliver
  split
  · next r hs => exact absurd hs (h r)
  all_goals rfl

/-- Settles O47: of all that a step can do, only a delivery takes a word of the host's. -/
theorem inputTakenOnlyWhenWaiting : Obligations.InputTakenOnlyWhenWaiting := by
  refine ⟨?_, fun s c => deliver_of_not_waiting c⟩
  intro s t h hne
  rcases step_next h with ⟨-, -, rfl⟩ | ⟨-, -, k, info, -, rfl⟩ | ⟨i, rest, -, -, -, hexec, -⟩ |
    ⟨r, c, rest, hs, hi, rfl⟩
  · exact absurd rfl hne
  · exact absurd rfl hne
  · exact absurd (exec_keeps_host hexec).2 hne
  · exact ⟨r, c, hs, hi, State.reg_setReg_same (s.setInput rest) r c, rfl⟩

/-! ### A store and the next fetch -/

/-- The window at `pc` holds the two bytes of each of its cells. -/
theorem fetchWindow_getElem? {s : State} {k : Nat} (hk : k ≤ 3) (hcell : s.pc.toNat + k < Config.memWords) :
    (fetchWindow s)[2 * k]? = some (lowByte (s.mem.readWord (s.pc.toNat + k))) ∧
      (fetchWindow s)[2 * k + 1]? = some (highByte (s.mem.readWord (s.pc.toNat + k))) := by
  have hin : k < min (1 + Config.maxArity) (Config.memWords - s.pc.toNat) := by
    unfold Config.maxArity
    omega
  have hword : ((List.range' s.pc.toNat (min (1 + Config.maxArity) (Config.memWords - s.pc.toNat))).map
      s.mem.readWord)[k]? = some (s.mem.readWord (s.pc.toNat + k)) := by
    simp [List.getElem?_range' hin]
  rw [fetchWindow, cellBytes_eq_bytesOfWords, getElem?_bytesOfWords_even, getElem?_bytesOfWords_odd, hword]
  exact ⟨rfl, rfl⟩

/-- A RUNNING core with the word 0 at `pc` halts (R100). -/
theorem step_of_readWord_halt {s : State} (hs : s.status = .running) (hlen : s.pc.toNat < s.imageLen.val)
    (hw : s.mem.readWord s.pc.toNat = 0) : step s = .next (s.setStatus .halted) := by
  have hd := decode_fetchWindow_known (s := s) (sh := .f0 .halt) (pc_lt_memWords hlen) (by rw [hw]; rfl)
  rw [stepRunsDecodedInstruction s _ _ hs hlen hd]
  rfl

/-- A RUNNING core with the word 21 at `pc` passes it (R101). -/
theorem step_of_readWord_noop {s : State} (hs : s.status = .running) (hlen : s.pc.toNat < s.imageLen.val)
    (hw : s.mem.readWord s.pc.toNat = 21) : step s = .next (s.advance 1) := by
  have hd := decode_fetchWindow_known (s := s) (sh := .f0 .noop) (pc_lt_memWords hlen) (by rw [hw]; rfl)
  rw [stepRunsDecodedInstruction s _ _ hs hlen hd, exec_noop]

/-- Settles O55: the store is in Memory before the next step begins, which reads its window and its opcode there. -/
theorem fetchSeesStore : Obligations.FetchSeesStore := by
  intro s t a b addr v hm hx ha hb hle h
  have ⟨hs, hlen, rest, hd⟩ := hx
  have hlt : addr.toNat < Config.memWords := Nat.lt_succ_of_le hle
  rw [stepRunsDecodedInstruction s _ _ hs hlen hd, exec_wmem ha hb hle, Host.Outcome.next.injEq] at h
  have hcell : t.mem.readWord addr.toNat = v := by
    rw [← h, State.advance_mem, State.setMem_mem, Memory.readWord_writeWord v _ hlt hm, if_pos rfl]
  have ht : t.status = .running := by rw [← h]; exact hs
  constructor
  · intro k hk hkaddr
    rw [← hcell, hkaddr]
    exact fetchWindow_getElem? hk (hkaddr ▸ hlt)
  · rintro rfl htlen
    refine ⟨?halt, ?noop, ?unknown⟩
    case halt => rintro rfl; exact step_of_readWord_halt ht htlen hcell
    case noop => rintro rfl; exact step_of_readWord_noop ht htlen hcell
    case unknown =>
      intro hv
      have hstep := stepUnknownOpcode t ht htlen (by rw [hcell]; exact hv)
      rw [hcell] at hstep
      exact hstep

/-! ### Values stay values -/

theorem resolve_le_of_valuesOnly {s : State} {o : Operand} {v : Word} (hs : s.valuesOnly) (h : resolve s o = .ok v) :
    v.toNat ≤ Config.valueMax := by
  obtain ⟨hregs, -⟩ := hs
  cases o with
  | lit w =>
    obtain rfl : encodeOperand (.lit w) = v := Except.ok.inj h
    rw [toNat_encodeOperand_lit]
    exact Nat.le_of_lt_succ w.isLt
  | reg r =>
    obtain rfl : s.reg r = v := Except.ok.inj h
    exact hregs r
  | invalid w => cases h

theorem State.valuesOnly_setReg {s : State} {v : Word} (r : Reg) (hs : s.valuesOnly) (hv : v.toNat ≤ Config.valueMax) :
    (s.setReg r v).valuesOnly := by
  obtain ⟨hregs, hstack⟩ := hs
  refine ⟨fun q => ?_, hstack⟩
  rw [State.reg_setReg]
  split
  · exact hv
  · exact hregs q

theorem State.valuesOnly_push {s : State} {v : Word} (hs : s.valuesOnly) (hv : v.toNat ≤ Config.valueMax) :
    (s.push v).valuesOnly := by
  obtain ⟨hregs, hstack⟩ := hs
  exact ⟨hregs, List.forall_mem_cons.2 ⟨hv, hstack⟩⟩

/-- The entries of a popped stack, and the one popped. -/
theorem State.valuesOnly_of_stack_cons {s : State} {v : Word} {rest : List Word} (hs : s.valuesOnly)
    (h : s.stack = v :: rest) : v.toNat ≤ Config.valueMax ∧ (s.setStack rest).valuesOnly := by
  obtain ⟨hregs, hstack⟩ := hs
  rw [h] at hstack
  obtain ⟨hv, hrest⟩ := List.forall_mem_cons.1 hstack
  exact ⟨hv, hregs, hrest⟩

theorem Writes.valuesOnly {s t : State} {a b : Operand} {len : Nat} {f : Word → Word → Prop} (h : Writes s t a b len f)
    (hs : s.valuesOnly) (hf : ∀ vb v, resolve s b = .ok vb → f vb v → v.toNat ≤ Config.valueMax) : t.valuesOnly := by
  obtain ⟨r, vb, v, -, hb, hv, rfl⟩ := h
  exact State.valuesOnly_setReg r hs (hf vb v hb hv)

theorem Writes2.valuesOnly {s t : State} {a b c : Operand} {f : Word → Word → Word → Prop} (h : Writes2 s t a b c f)
    (hs : s.valuesOnly) (hf : ∀ vb vc v, vb.toNat ≤ Config.valueMax → vc.toNat ≤ Config.valueMax → f vb vc v →
      v.toNat ≤ Config.valueMax) : t.valuesOnly := by
  obtain ⟨r, vb, vc, v, -, hb, hc, hv, rfl⟩ := h
  exact State.valuesOnly_setReg r hs
    (hf vb vc v (resolve_le_of_valuesOnly hs hb) (resolve_le_of_valuesOnly hs hc) hv)

theorem toNat_truthWord_le (p : Bool) : (truthWord p).toNat ≤ Config.valueMax := by
  cases p <;> decide

/-- Of the effects only those of `rmem` and `call` can bring in a word above 32767 (U6). -/
theorem Effect.valuesOnly {i : Instr} {s t : State} (h : Effect s t i) (hs : s.valuesOnly)
    (hrmem : ∀ a b addr, i = .rmem a b → resolve s b = .ok addr → (s.mem.readWord addr.toNat).toNat ≤ 32767)
    (hcall : ∀ a, i = .call a → s.pc.toNat ≤ 32765) : t.valuesOnly := by
  cases i with
  | halt | noop => cases h; exact hs
  | jmp => obtain ⟨u, -, rfl⟩ := h; exact hs
  | jt | jf => obtain ⟨v, -, ⟨-, u, -, rfl⟩ | ⟨-, rfl⟩⟩ := h <;> exact hs
  | inp => obtain ⟨r, -, rfl⟩ := h; exact hs
  | out => obtain ⟨v, -, rfl⟩ := h; exact hs
  | wmem => obtain ⟨addr, v, -, -, -, rfl⟩ := h; exact hs
  | push => obtain ⟨v, hv, rfl⟩ := h; exact State.valuesOnly_push hs (resolve_le_of_valuesOnly hs hv)
  | call a =>
    obtain ⟨u, -, rfl⟩ := h
    have hpc : s.pc.toNat ≤ 32765 := hcall a rfl
    have hsum : (s.pc + 2).toNat = s.pc.toNat + 2 :=
      State.advance_pc_toNat (n := 2) (by unfold Config.memWords; omega) (by omega)
    exact State.valuesOnly_push hs (by rw [hsum]; unfold Config.valueMax; omega)
  | pop =>
    obtain ⟨r, v, rest, -, hstack, rfl⟩ := h
    obtain ⟨hv, hrest⟩ := State.valuesOnly_of_stack_cons hs hstack
    exact State.valuesOnly_setReg r hrest hv
  | ret =>
    obtain ⟨u, rest, hstack, rfl⟩ := h
    obtain ⟨-, hrest⟩ := State.valuesOnly_of_stack_cons hs hstack
    exact hrest
  | set => exact Writes.valuesOnly h hs fun vb v hb hv => hv ▸ resolve_le_of_valuesOnly hs hb
  | not =>
    refine Writes.valuesOnly h hs fun vb v _ hv => ?_
    rw [hv, toNat_notWord]
    exact Nat.sub_le _ _
  | rmem a b =>
    refine Writes.valuesOnly h hs fun vb v hb ⟨_, hv⟩ => ?_
    rw [hv]
    exact hrmem a b vb rfl hb
  | eq | gt => exact Writes2.valuesOnly h hs fun vb vc v _ _ hv => hv ▸ toNat_truthWord_le _
  | add =>
    refine Writes2.valuesOnly h hs fun vb vc v _ _ hv => ?_
    rw [hv, toNat_addWord]
    exact Nat.le_of_lt_succ (Nat.mod_lt _ (by decide))
  | mult =>
    refine Writes2.valuesOnly h hs fun vb vc v _ _ hv => ?_
    rw [hv, toNat_multWord]
    exact Nat.le_of_lt_succ (Nat.mod_lt _ (by decide))
  | mod =>
    refine Writes2.valuesOnly h hs fun vb vc v hvb _ ⟨_, hv⟩ => ?_
    rw [hv, toNat_ofNat_mod]
    exact (Nat.mod_le _ _).trans hvb
  | and => exact Writes2.valuesOnly h hs fun vb vc v hvb _ hv => hv ▸ (toNat_andWord_le vb vc).trans hvb
  | or => exact Writes2.valuesOnly h hs fun vb vc v hvb hvc hv => hv ▸ toNat_orWord_le hvb hvc

/-- Settles O50: an executed instruction keeps the values under U6's two premises, a delivery because the host's words
are values. -/
theorem valuesStayValues : Obligations.ValuesStayValues := by
  intro s t hs hhost hrmem hcall h
  rcases step_next h with ⟨-, -, rfl⟩ | ⟨-, -, k, info, -, rfl⟩ | ⟨i, rest, hrun, hlen, hd, hexec, he⟩ |
    ⟨r, c, rest, -, hi, rfl⟩
  · exact ⟨hs, hhost⟩
  · exact ⟨hs, hhost⟩
  · have hx : Executes s i := ⟨hrun, hlen, rest, hd⟩
    constructor
    · exact he.valuesOnly hs (fun a b addr hi => hrmem a b addr (hi ▸ hx)) (fun a hi => hcall a (hi ▸ hx))
    · rw [State.hostWithin, (exec_keeps_host hexec).2]
      exact hhost
  · rw [State.hostWithin, hi] at hhost
    obtain ⟨hc, hrest⟩ := List.forall_mem_cons.1 hhost
    exact ⟨State.valuesOnly_setReg r hs hc, hrest⟩

end Sys2Proof.Machine
